-- ==== Sys2Proof/Word.lean ====
section
/-!
DEFINITION. The three bit-vector types of the frame decoder: the byte of its data path (spec 00_scope.md R10, R12), the
3-bit phase code (30_encoding.md R75) and the 13-bit event word (30_encoding.md R76).
-/

namespace Sys2Proof

/-- A byte: the input byte, a buffer entry, the checksum and the two 8-bit counters (R10, R12). Bit 0 is the least significant. -/
abbrev Byte := BitVec 8

/-- The contents of the 3-bit `phase` register (R75): five legal codes and three illegal ones. -/
abbrev PhaseCode := BitVec 3

/-- The 13-bit event word of R76: `rst`, `in_valid`, `phase`, `in_data` from the top bit down. -/
abbrev EventWord := BitVec 13

end Sys2Proof
end

