-- ==== Sys2Proof/Config.lean ====
section
/-!
DEFINITION. What a build fixes (spec 00_scope.md R6 to R9, 10_state.md R32) and the free values the spec leaves open
(93_implementation_defined.md I1 and I7). A free value is an opaque constant: no proof can learn what it is.
-/

namespace Sys2Proof

/-- The three build-time constants, which R9 allows a model to take as arguments. -/
structure Params where
  /-- `START_MARKER`, the byte that opens a frame (R6). -/
  startMarker : Byte
  /-- `END_MARKER`, the byte that closes a frame (R7). -/
  endMarker : Byte
  /-- `CAP`, the payload buffer's capacity in bytes (R8). -/
  cap : Nat
deriving DecidableEq, Repr

/-- The legal range of R9: both markers are any byte, and `CAP` is in `2..256`. -/
abbrev Params.legal (P : Params) : Prop := 2 ≤ P.cap ∧ P.cap ≤ 256

/-- This hardware's values: `START_MARKER = 0x02`, `END_MARKER = 0x03`, `CAP = 256` (R6, R7, R8, R32). -/
def Config.hw : Params := { startMarker := 0x02, endMarker := 0x03, cap := 256 }

/-- The identity string this spec gives the block (R2, D19); no port shows it. -/
def Config.identity : String := "ufsm00292-pse-frame-decoder/v7"

/-- The width of the `exp` and `cnt` registers for a general `CAP`: `ceil(log2(CAP))` bits, at least 1 (R10). The model holds
both in 8 bits, which is this width at `CAP = 256`; log entry 9. -/
def Params.counterWidth (P : Params) : Nat := max 1 (Nat.clog 2 P.cap)

/-- FREE VALUE (I1; R25, R251): what buffer entry `addr` holds from power-up `draw` until a payload byte is first written to
it. The spec states no value; log entry 1. -/
opaque Config.powerUpByte : (draw : Nat) → (addr : Nat) → Byte

/-- FREE VALUE (I7; R52): what the read port shows for an address at or above `CAP`, in the cycle before edge number `edge`.
It never arises at `CAP = 256`; log entry 2. -/
opaque Config.readBeyondCap : (draw : Nat) → (edge : Nat) → (addr : Nat) → Byte

end Sys2Proof
end

