-- ==== Sys2Proof/Syntax.lean ====
section
/-!
DEFINITION. The operations of the frame decoder, one constructor for each row of the operation map (spec 30_encoding.md R78,
opcode_table.json), with every bit of the event word that the row leaves free as an operand; the five phases (10_state.md
R21); and the registers the rows' conditions read (R76, R31).
-/

namespace Sys2Proof

/-- The five phases (R21). -/
inductive Phase where
  | awaitStart
  | awaitLength
  | awaitPayload
  | awaitChecksum
  | awaitEnd
deriving DecidableEq, Repr

/-- The datapath registers that the conditions of R78's rows 9 to 12 read beside the event word (R76). -/
structure Regs where
  cnt : Byte
  exp : Byte
  chk : Byte
deriving DecidableEq, Repr

/-- The operations, in the priority order of R78. An operand `b` is the byte `in_data`; where R78 ignores a field of the
event word, the operand keeps the ignored bits, so that encoding loses nothing. -/
inductive Instr where
  /-- RESET (R250): `in_valid`, `phase` and `in_data` are ignored. -/
  | reset (valid : Bool) (phase : PhaseCode) (b : Byte)
  /-- RECOVER.101 (R107): the phase code is `101`; `in_valid` and `in_data` are ignored. -/
  | recover101 (valid : Bool) (b : Byte)
  /-- RECOVER.11x (R107): the phase code is `11` and then the bit `low`. -/
  | recover11x (valid : Bool) (low : Bool) (b : Byte)
  /-- IDLE (R104): any legal phase code; `in_data` is ignored. -/
  | idle (phase : PhaseCode) (b : Byte)
  /-- START_DETECT (R120): the byte is START_MARKER. -/
  | startDetect
  /-- NOISE (R121). -/
  | noise (b : Byte)
  /-- LEN_REJECT (R131). -/
  | lenReject (b : Byte)
  /-- LEN_ACCEPT (R130). -/
  | lenAccept (b : Byte)
  /-- PAY_NEXT (R140). -/
  | payNext (b : Byte)
  /-- PAY_LAST (R141). -/
  | payLast (b : Byte)
  /-- CK_MATCH (R150). -/
  | ckMatch (b : Byte)
  /-- CK_MISMATCH (R151). -/
  | ckMismatch (b : Byte)
  /-- END_OK (R160): the byte is END_MARKER. -/
  | endOk
  /-- END_BAD (R161). -/
  | endBad (b : Byte)
deriving DecidableEq, Repr

end Sys2Proof
end

