-- ==== Sys2Proof/WellFormed.lean ====
section
/-!
DEFINITION. Which operands an operation may carry: the conditions of spec 30_encoding.md R78 that read the event word
alone. The conditions that read the registers are `Instr.enabled`, in Decode.lean.
-/

namespace Sys2Proof

/-- The conditions of R78 on the event word's own fields: IDLE's phase is legal; NOISE and END_BAD exclude their marker;
LEN_ACCEPT and LEN_REJECT split the bytes by `0 < b < CAP`, an unsigned compare (R77). -/
def Instr.wellFormed (P : Params) : Instr → Bool
  | .reset _ _ _ => true
  | .recover101 _ _ => true
  | .recover11x _ _ _ => true
  | .idle phase _ => decide (phase.toNat < 5)
  | .startDetect => true
  | .noise b => decide (b ≠ P.startMarker)
  | .lenReject b => decide (b.toNat = 0 ∨ P.cap ≤ b.toNat)
  | .lenAccept b => decide (0 < b.toNat ∧ b.toNat < P.cap)
  | .payNext _ => true
  | .payLast _ => true
  | .ckMatch _ => true
  | .ckMismatch _ => true
  | .endOk => true
  | .endBad b => decide (b ≠ P.endMarker)

end Sys2Proof
end

