-- ==== Sys2Proof/Decode.lean ====
section
/-!
DEFINITION. The phase encoding (spec 30_encoding.md R75), the event word (R76), the operation map as a table of masks and
patterns searched top to bottom (R78), its inverse `encode`, and the host's `decodeTableWord`.
-/

namespace Sys2Proof

/-- The 3-bit code of a phase (R75). -/
def Phase.code : Phase → PhaseCode
  | .awaitStart => 0b000
  | .awaitLength => 0b001
  | .awaitPayload => 0b010
  | .awaitChecksum => 0b011
  | .awaitEnd => 0b100

/-- The phase a code stands for; `none` for the illegal codes `101`, `110` and `111` (R75, R80). -/
def Phase.ofCode (c : PhaseCode) : Option Phase :=
  if c = 0b000 then some .awaitStart
  else if c = 0b001 then some .awaitLength
  else if c = 0b010 then some .awaitPayload
  else if c = 0b011 then some .awaitChecksum
  else if c = 0b100 then some .awaitEnd
  else none

/-- The event word `ev[12] = rst`, `ev[11] = in_valid`, `ev[10:8] = phase`, `ev[7:0] = in_data` (R76). -/
def eventWord (rst valid : Bool) (phase : PhaseCode) (b : Byte) : EventWord :=
  BitVec.ofBool rst ++ BitVec.ofBool valid ++ phase ++ b

/-- `ev[12]` (R76). -/
def eventRst (ev : EventWord) : Bool := ev.getLsbD 12

/-- `ev[11]` (R76). -/
def eventValid (ev : EventWord) : Bool := ev.getLsbD 11

/-- `ev[10:8]` (R76). -/
def eventPhase (ev : EventWord) : PhaseCode := ev.extractLsb' 8 3

/-- `ev[7:0]`, the operand byte `b` (R76, R77). -/
def eventByte (ev : EventWord) : Byte := ev.extractLsb' 0 8

/-- Row 9's condition, `cnt < exp and cnt + 1 < exp`; `+ 1` is addition modulo `2^8`, compares are unsigned (R78, R12). -/
def Regs.morePayload (r : Regs) : Bool := decide (r.cnt.toNat < r.exp.toNat ∧ (r.cnt + 1).toNat < r.exp.toNat)

/-- Row 10's condition, `cnt < exp and cnt + 1 = exp` (R78, R12). -/
def Regs.lastPayload (r : Regs) : Bool := decide (r.cnt.toNat < r.exp.toNat ∧ (r.cnt + 1).toNat = r.exp.toNat)

/-- The conditions of R78 on the registers (rows 9 to 12). -/
def Instr.enabled (r : Regs) : Instr → Bool
  | .reset _ _ _ => true
  | .recover101 _ _ => true
  | .recover11x _ _ _ => true
  | .idle _ _ => true
  | .startDetect => true
  | .noise _ => true
  | .lenReject _ => true
  | .lenAccept _ => true
  | .payNext _ => r.morePayload
  | .payLast _ => r.lastPayload
  | .ckMatch b => decide (b = r.chk)
  | .ckMismatch b => decide (b ≠ r.chk)
  | .endOk => true
  | .endBad _ => true

/-- Why an event word decodes to no operation: an AwaitPayload event word with `cnt >= exp` matches no row (R78, R79). -/
inductive DecodeError where
  | payloadBound
deriving DecidableEq, Repr

/-- One row of the operation map: it matches when `ev & mask = pattern` and its condition holds (R78). -/
structure Row where
  mask : EventWord
  pattern : EventWord
  cond : Regs → Byte → Bool
  build : EventWord → Instr

/-- Whether a row matches an event word in given registers (R78). -/
def Row.accepts (row : Row) (r : Regs) (ev : EventWord) : Bool :=
  decide (ev &&& row.mask = row.pattern) && row.cond r (eventByte ev)

/-- The condition of a row that has none beside its mask. -/
def noCondition (_ : Regs) (_ : Byte) : Bool := true

/-- The operation map of R78 in its priority order. Rows 5 and 13 carry the marker in their pattern; row 7's condition is
the general one of R131, which for `CAP = 256` accepts the one event word `0x0900`. -/
def opcodeRows (P : Params) : List Row :=
  [ ⟨0x1000, 0x1000, noCondition, fun ev => .reset (eventValid ev) (eventPhase ev) (eventByte ev)⟩,
    ⟨0x1700, 0x0500, noCondition, fun ev => .recover101 (eventValid ev) (eventByte ev)⟩,
    ⟨0x1600, 0x0600, noCondition, fun ev => .recover11x (eventValid ev) ((eventPhase ev).getLsbD 0) (eventByte ev)⟩,
    ⟨0x1800, 0x0000, noCondition, fun ev => .idle (eventPhase ev) (eventByte ev)⟩,
    ⟨0x1FFF, 0x0800 ||| P.startMarker.zeroExtend 13, noCondition, fun _ => .startDetect⟩,
    ⟨0x1F00, 0x0800, noCondition, fun ev => .noise (eventByte ev)⟩,
    ⟨0x1F00, 0x0900, fun _ b => decide (b.toNat = 0 ∨ P.cap ≤ b.toNat), fun ev => .lenReject (eventByte ev)⟩,
    ⟨0x1F00, 0x0900, fun _ b => decide (0 < b.toNat ∧ b.toNat < P.cap), fun ev => .lenAccept (eventByte ev)⟩,
    ⟨0x1F00, 0x0A00, fun r _ => r.morePayload, fun ev => .payNext (eventByte ev)⟩,
    ⟨0x1F00, 0x0A00, fun r _ => r.lastPayload, fun ev => .payLast (eventByte ev)⟩,
    ⟨0x1F00, 0x0B00, fun r b => decide (b = r.chk), fun ev => .ckMatch (eventByte ev)⟩,
    ⟨0x1F00, 0x0B00, fun r b => decide (b ≠ r.chk), fun ev => .ckMismatch (eventByte ev)⟩,
    ⟨0x1FFF, 0x0C00 ||| P.endMarker.zeroExtend 13, noCondition, fun _ => .endOk⟩,
    ⟨0x1F00, 0x0C00, noCondition, fun ev => .endBad (eventByte ev)⟩ ]

/-- The operation an event word selects: the first row that matches wins (R78). -/
def decode (P : Params) (r : Regs) (ev : EventWord) : Except DecodeError Instr :=
  match (opcodeRows P).find? (fun row => row.accepts r ev) with
  | some row => .ok (row.build ev)
  | none => .error .payloadBound

/-- The event word of an operation, from the `encoding` column of opcode_table.json (R76, R78). -/
def encode (P : Params) : Instr → EventWord
  | .reset valid phase b => eventWord true valid phase b
  | .recover101 valid b => eventWord false valid 0b101 b
  | .recover11x valid low b => eventWord false valid (0b11#2 ++ BitVec.ofBool low) b
  | .idle phase b => eventWord false false phase b
  | .startDetect => eventWord false true 0b000 P.startMarker
  | .noise b => eventWord false true 0b000 b
  | .lenReject b => eventWord false true 0b001 b
  | .lenAccept b => eventWord false true 0b001 b
  | .payNext b => eventWord false true 0b010 b
  | .payLast b => eventWord false true 0b010 b
  | .ckMatch b => eventWord false true 0b011 b
  | .ckMismatch b => eventWord false true 0b011 b
  | .endOk => eventWord false true 0b100 P.endMarker
  | .endBad b => eventWord false true 0b100 b

/-- The registers in which `decodeTableWord` reads a word. Rows 9 to 12 of R78 share their words two by two and the registers
choose between them, so one word alone does not name one row; log entry 6. With these registers an AwaitPayload word is
PAY_NEXT, and an AwaitChecksum word is CK_MATCH for `b = 0x00` and CK_MISMATCH otherwise. -/
def tableRegs : Regs := { cnt := 0, exp := 2, chk := 0 }

/-- The event word in a table row's bits: bits 12..0 of `w` below `nbits`; an event word has no bit above 12 (R76). -/
def tableEventWord (nbits w : Nat) : EventWord := BitVec.ofNat 13 (w % 2 ^ nbits)

/-- The operation the decoder reads from a table word, in the registers `tableRegs`. -/
def decodeTableWord (nbits w : Nat) : Option Instr :=
  (decode Config.hw tableRegs (tableEventWord nbits w)).toOption

end Sys2Proof
end

