-- ==== Sys2Proof/Machine/State.lean ====
section
/-!
DEFINITION. The state of one decoder instance (spec 10_state.md R20 to R26), the model's own fields beside it (the ghost
trace of 40_transition_framework.md R105 and R112, the edge count, the input cycles still to come, the power-up draw), the
reasons a step can stop, and the state after RESET (70_reset_and_hazards.md R250).
-/

namespace Sys2Proof.Machine

/-- The kind of a framing violation: a ghost label that no port carries (R14, R200). -/
inductive ErrorKind where
  /-- Invalid length, found by LEN_REJECT. -/
  | eLen
  /-- Checksum mismatch, found by CK_MISMATCH. -/
  | eChk
  /-- Bad terminator, found by END_BAD. -/
  | eEnd
deriving DecidableEq, Repr

/-- What one byte step signals (R14, R102). -/
inductive Event where
  | none
  | success (len : Byte)
  | error (kind : ErrorKind)
deriving DecidableEq, Repr

/-- One entry of the ghost trace (R112): the clock edge that consumed the causing byte, and what was signalled. The pulse
shows in the cycle right after that edge (R109). The payload is `buf[0..len-1]` as it stood after the edge. -/
inductive Notice where
  | success (edge : Nat) (len : Byte) (payload : List Byte)
  | error (edge : Nat) (kind : ErrorKind)
deriving DecidableEq, Repr

/-- The sampled input ports at one rising edge of `clk` (R70): every input has a defined 0/1 value (R257). The read address
`rd_addr` is combinational and is an argument of the read port instead (R35, R52). -/
structure InputCycle where
  rst : Bool
  inValid : Bool
  inData : Byte
deriving DecidableEq, Repr

/-- The written entries of the payload buffer, by address, strictly rising (R25, R50). An entry that is not listed has not
been written since power-up; see `Memory.wf` and `State.bufRead`. -/
abbrev Memory := List Host.Cell

/-- The state. The first seven fields are the spec's whole list (R20); the last four are the model's own. -/
structure State where
  /-- The 3-bit phase register (R21, R75). -/
  phase : PhaseCode
  /-- Expected length (R22). -/
  exp : Byte
  /-- Bytes received, and the buffer's write address (R23). -/
  cnt : Byte
  /-- Running checksum (R24). -/
  chk : Byte
  /-- Payload buffer (R25). -/
  buf : Memory
  /-- The register behind the `ok` output (R26). -/
  okR : Bool
  /-- The register behind the `err` output (R26). -/
  errR : Bool
  /-- MODEL: which power-up this is; it selects the free draw of the unwritten buffer entries (I1). No step writes it. -/
  powerUp : Nat
  /-- MODEL: the number of the coming clock edge; the last reset edge before a run is edge 0 (95_test_vectors.md C5). -/
  edge : Nat
  /-- MODEL: the ghost trace, oldest first (R105, R112). -/
  trace : List Notice
  /-- MODEL: the input cycles of the run that are still to come (R82, R112). -/
  inputs : List InputCycle
deriving DecidableEq, Repr

/-- The reasons a step stops with a fault. -/
inductive Fault where
  /-- Raised at an edge that consumes a byte in AwaitPayload with `cnt >= exp` (R15, R100, R140, R141; I4): the source gives
  that state no row, and no run from reset reaches it. Safe. -/
  | payloadBound
deriving DecidableEq, Repr

/-- The reasons a step has no meaning. -/
inductive Refusal where
  /-- An operation that has no meaning yet; no arm of `exec` raises it. Safe. -/
  | notModelled (mnemonic : String)
  /-- Raised by `step` when the run's list of input cycles is exhausted (R112, D21): the run has ended, and the spec says
  nothing of what the chip does after the last listed cycle. Safe. -/
  | endOfRun
deriving DecidableEq, Repr

/-- The machine right after the RESET edge (R250): the reset values of R21 to R26, no buffer entry written yet (R57), no
notification. The model's own fields: the reset edge was edge 0, and no input cycle is listed. -/
def State.reset : State :=
  { phase := 0b000, exp := 0x00, cnt := 0x00, chk := 0x00, buf := [], okR := false, errR := false,
    powerUp := 0, edge := 1, trace := [], inputs := [] }

end Sys2Proof.Machine
end

