-- ==== Sys2Proof/Machine/Flags.lean ====
section
/-!
DEFINITION. How the two output registers, the block's only stored status bits, follow from an edge's event (spec 10_state.md
R26, R31; 40_transition_framework.md R105), and the ghost code of an error (60_exceptions.md R200).
-/

namespace Sys2Proof.Machine

/-- `ok_r <- (ev is Success)` (R105). -/
def Event.isSuccess : Event → Bool
  | .none => false
  | .success _ => true
  | .error _ => false

/-- `err_r <- (ev is Error)` (R105). -/
def Event.isError : Event → Bool
  | .none => false
  | .success _ => false
  | .error _ => true

/-- The ghost code of a violation: `E_LEN = 1`, `E_CHK = 2`, `E_END = 3` (R200). -/
def ErrorKind.code : ErrorKind → Nat
  | .eLen => 1
  | .eChk => 2
  | .eEnd => 3

/-- The edge that consumed a notice's causing byte. -/
def Notice.atEdge : Notice → Nat
  | .success e _ _ => e
  | .error e _ => e

/-- Whether a notice is a success. -/
def Notice.isSuccess : Notice → Bool
  | .success _ _ _ => true
  | .error _ _ => false

/-- A notice without the number of its edge: the success's length and payload, or the error's kind. Two runs that differ
only in IDLE cycles agree on this (R108). -/
def Notice.content : Notice → Option (Byte × List Byte) × Option ErrorKind
  | .success _ len payload => (some (len, payload), none)
  | .error _ kind => (none, some kind)

end Sys2Proof.Machine
end

