-- ==== Sys2Proof/Machine/Operands.lean ====
section
/-!
DEFINITION. The operands of an edge: the registers the conditions read (spec 30_encoding.md R76, R77), the event word that
the ports and the phase make (R76), and the placing of a table word as the next edge's event.
-/

namespace Sys2Proof.Machine

/-- The registers a row's condition reads (R76). -/
def State.regs (s : State) : Regs := { cnt := s.cnt, exp := s.exp, chk := s.chk }

/-- The event word at an edge with inputs `c` in state `s` (R76). -/
def State.eventWordOf (s : State) (c : InputCycle) : EventWord := eventWord c.rst c.inValid s.phase c.inData

/-- A cycle that consumes `b` (R82 `.byte`). -/
def consuming (b : Byte) : InputCycle := { rst := false, inValid := true, inData := b }

/-- The input ports an event word describes (R76). -/
def inputCycleOf (ev : EventWord) : InputCycle :=
  { rst := eventRst ev, inValid := eventValid ev, inData := eventByte ev }

/-- The registers under which an event word of a given phase code selects the row `decodeTableWord` answers: rows 9 to 12
need `cnt` and `exp`, or `chk`, as in `tableRegs` (R78; log entry 6). Every other row reads the event word alone. -/
def State.withTableRegs (s : State) (phase : PhaseCode) : State :=
  if phase = 0b010 then { s with cnt := tableRegs.cnt, exp := tableRegs.exp }
  else if phase = 0b011 then { s with chk := tableRegs.chk }
  else s

/-- The state in which event word `ev` is the one the coming edge decodes: its inputs stand first in the list, the phase
register holds its phase code, and rows 9 to 12 find the registers they need. -/
def State.placeEvent (s : State) (ev : EventWord) : State :=
  let t := s.withTableRegs (eventPhase ev)
  { t with phase := eventPhase ev, inputs := inputCycleOf ev :: s.inputs }

end Sys2Proof.Machine
end

