-- ==== Sys2Proof/Machine/Ops.lean ====
section
/-!
DEFINITION. The named operations that the meanings share: the payload buffer (spec 20_memory.md R50 to R57), the XOR fold
(43_await_payload.md R142), ResetAttempt (40_transition_framework.md R110), the acceptance of a payload byte, the commit of
an edge's event (R105), and resynchronisation (60_exceptions.md R204), which is this block's "trap entry". There is no
return from it (R205).
-/

namespace Sys2Proof.Machine

/-- The value written to entry `a`, if any byte was written there since power-up. -/
def Memory.lookup : Memory → Nat → Option Byte
  | [], _ => none
  | (k, v) :: m, a => if k = a then some v else Memory.lookup m a

/-- `MemWrite(a, 1, v)` (R51), keeping the addresses strictly rising. -/
def Memory.write : Memory → Nat → Byte → Memory
  | [], a, v => [(a, v)]
  | (k, w) :: m, a, v =>
    if a < k then (a, v) :: (k, w) :: m
    else if a = k then (a, v) :: m
    else (k, w) :: Memory.write m a v

/-- The canonical form: addresses strictly rising, all inside the address space `0..255` (R50). An unlisted entry has no
value of its own, so no listed entry can equal it. -/
def Memory.wf (m : Memory) : Bool :=
  decide (m.Pairwise (fun x y => x.1 < y.1)) && m.all (fun x => decide (x.1 < 256))

/-- Every written entry lies below address `n`. -/
def Memory.within (m : Memory) (n : Nat) : Prop := ∀ x ∈ m, x.1 < n

/-- `MemRead(a, 1)`: the byte entry `a` holds; for an entry nothing has written since power-up, its free draw (R25, I1). -/
def State.bufRead (s : State) (a : Nat) : Byte :=
  match Memory.lookup s.buf a with
  | some v => v
  | none => Config.powerUpByte s.powerUp a

/-- `buf[0..n-1]`, in transmission order (R53, R58). -/
def State.payload (s : State) (n : Nat) : List Byte := (List.range n).map s.bufRead

/-- `X(p) = p0 ^ ... ^ p(n-1)`, with `X(empty) = 0` (R83, R142, R27). -/
def xorFold (ps : List Byte) : Byte := ps.foldl (fun x b => x ^^^ b) 0

/-- `phase <- p` (R13). -/
def State.withPhase (s : State) (p : Phase) : State := { s with phase := p.code }

/-- ResetAttempt: `exp`, `cnt` and `chk` are cleared; the buffer is not touched (R110, R57). -/
def State.resetAttempt (s : State) : State := { s with exp := 0, cnt := 0, chk := 0 }

/-- The datapath that PAY_NEXT and PAY_LAST share: `buf[cnt] <- b`, `chk <- chk ^ b`, `cnt <- cnt + 1` modulo `2^8`, each
reading the state before the step (R12, R101, R142). -/
def State.acceptByte (s : State) (b : Byte) : State :=
  { s with buf := Memory.write s.buf s.cnt.toNat b, chk := s.chk ^^^ b, cnt := s.cnt + 1 }

/-- The trace entry of an event, if it signals (R105, R112). -/
def State.noticesOf (s : State) : Event → List Notice
  | .none => []
  | .success len => [.success s.edge len (s.payload len.toNat)]
  | .error kind => [.error s.edge kind]

/-- The end of an edge: `ok_r`, `err_r` and the ghost trace follow the event (R104, R105, R107). -/
def State.commit (s : State) (ev : Event) : State :=
  { s with okR := ev.isSuccess, errR := ev.isError, trace := s.trace ++ s.noticesOf ev }

/-- Resynchronisation (R204): every signalling operation goes to AwaitStart; only some also run ResetAttempt. -/
def State.resync (s : State) (discard : Bool) : State :=
  State.withPhase (if discard then s.resetAttempt else s) .awaitStart

/-- The edge has passed: the next one has the next number. -/
def State.afterEdge (s : State) : State := { s with edge := s.edge + 1 }

end Sys2Proof.Machine
end

