-- ==== Sys2Proof/Machine/AwaitChecksum.lean ====
section
/-!
DEFINITION. The AwaitChecksum operations (spec 44_await_checksum.md): CK_MATCH and CK_MISMATCH.
-/

namespace Sys2Proof.Machine

/-- CK_MATCH's byte step (R150): on to AwaitEnd, all else held. -/
def State.ckMatch (s : State) : State := s.withPhase .awaitEnd

/-- CK_MISMATCH's byte step (R151): ResetAttempt, then AwaitStart. -/
def State.ckMismatch (s : State) : State := s.resync true

/-- CK_MATCH (R150); event None. -/
def execCkMatch (_b : Byte) (s : State) : Host.Outcome State Fault Refusal := .next (s.ckMatch.commit .none)

/-- CK_MISMATCH (R151); event `Error(E_CHK)`. -/
def execCkMismatch (_b : Byte) (s : State) : Host.Outcome State Fault Refusal :=
  .next (s.ckMismatch.commit (.error .eChk))

end Sys2Proof.Machine
end

