-- ==== Sys2Proof/Machine/AwaitEnd.lean ====
section
/-!
DEFINITION. The AwaitEnd operations (spec 45_await_end.md): END_OK and END_BAD.
-/

namespace Sys2Proof.Machine

/-- END_OK's byte step (R160): to AwaitStart, with every register held (no ResetAttempt). -/
def State.endOk (s : State) : State := s.resync false

/-- END_BAD's byte step (R161): to AwaitStart, with every register held (no ResetAttempt). -/
def State.endBad (s : State) : State := s.resync false

/-- END_OK (R160); event `Success(exp)` with payload `buf[0..exp-1]`. -/
def execEndOk (s : State) : Host.Outcome State Fault Refusal := .next (s.endOk.commit (.success s.exp))

/-- END_BAD (R161); event `Error(E_END)`. The byte is consumed, START_MARKER too (R207). -/
def execEndBad (_b : Byte) (s : State) : Host.Outcome State Fault Refusal :=
  .next (s.endBad.commit (.error .eEnd))

end Sys2Proof.Machine
end

