-- ==== Sys2Proof/Machine/AwaitLength.lean ====
section
/-!
DEFINITION. The AwaitLength operations (spec 42_await_length.md): LEN_ACCEPT and LEN_REJECT.
-/

namespace Sys2Proof.Machine

/-- LEN_ACCEPT's byte step (R130): `exp <- b`, then AwaitPayload. -/
def State.lenAccept (s : State) (b : Byte) : State := State.withPhase { s with exp := b } .awaitPayload

/-- LEN_REJECT's byte step (R131): ResetAttempt, then AwaitStart. -/
def State.lenReject (s : State) : State := s.resync true

/-- LEN_ACCEPT (R130); event None. -/
def execLenAccept (b : Byte) (s : State) : Host.Outcome State Fault Refusal := .next ((s.lenAccept b).commit .none)

/-- LEN_REJECT (R131); event `Error(E_LEN)`. -/
def execLenReject (_b : Byte) (s : State) : Host.Outcome State Fault Refusal :=
  .next (s.lenReject.commit (.error .eLen))

end Sys2Proof.Machine
end

