-- ==== Sys2Proof/Machine/AwaitPayload.lean ====
section
/-!
DEFINITION. The AwaitPayload operations (spec 43_await_payload.md): PAY_NEXT and PAY_LAST.
-/

namespace Sys2Proof.Machine

/-- PAY_NEXT's byte step (R140). -/
def State.payNext (s : State) (b : Byte) : State := (s.acceptByte b).withPhase .awaitPayload

/-- PAY_LAST's byte step (R141). -/
def State.payLast (s : State) (b : Byte) : State := (s.acceptByte b).withPhase .awaitChecksum

/-- PAY_NEXT (R140); event None. Its precondition `cnt < exp` failing raises `Fault(PayloadBound)` (R15). -/
def execPayNext (b : Byte) (s : State) : Host.Outcome State Fault Refusal :=
  if s.cnt.toNat < s.exp.toNat then .next ((s.payNext b).commit .none) else .fault .payloadBound

/-- PAY_LAST (R141); event None. Its precondition `cnt < exp` failing raises `Fault(PayloadBound)` (R15). -/
def execPayLast (b : Byte) (s : State) : Host.Outcome State Fault Refusal :=
  if s.cnt.toNat < s.exp.toNat then .next ((s.payLast b).commit .none) else .fault .payloadBound

end Sys2Proof.Machine
end

