-- ==== Sys2Proof/Machine/AwaitStart.lean ====
section
/-!
DEFINITION. The AwaitStart operations (spec 41_await_start.md): START_DETECT and NOISE.
-/

namespace Sys2Proof.Machine

/-- START_DETECT's byte step (R120): ResetAttempt, then AwaitLength. -/
def State.startDetect (s : State) : State := s.resetAttempt.withPhase .awaitLength

/-- NOISE's byte step (R121): the phase stays AwaitStart, all else is held. -/
def State.noise (s : State) : State := s.withPhase .awaitStart

/-- START_DETECT (R120); event None. -/
def execStartDetect (s : State) : Host.Outcome State Fault Refusal := .next (s.startDetect.commit .none)

/-- NOISE (R121); event None. -/
def execNoise (_b : Byte) (s : State) : Host.Outcome State Fault Refusal := .next (s.noise.commit .none)

end Sys2Proof.Machine
end

