-- ==== Sys2Proof/Machine/System.lean ====
section
/-!
DEFINITION. The operations that belong to no phase: RESET (spec 70_reset_and_hazards.md R250), the two rows of RECOVER
(40_transition_framework.md R107) and IDLE (R104).
-/

namespace Sys2Proof.Machine

/-- RESET's writes (R250): the reset values of every register; the buffer is not written, and nothing is signalled. -/
def State.resetEdge (s : State) : State :=
  { s with phase := Phase.code .awaitStart, exp := 0, cnt := 0, chk := 0, okR := false, errR := false }

/-- RECOVER's writes (R107): `phase <- AwaitStart`, ResetAttempt, no pulse. -/
def State.recover (s : State) : State := ((s.resetAttempt).withPhase .awaitStart).commit .none

/-- IDLE's writes (R104): no pulse, all other state unchanged. -/
def State.idleEdge (s : State) : State := s.commit .none

/-- RESET (R250). The presented byte is not consumed (R206, R252). -/
def execReset (_valid : Bool) (_phase : PhaseCode) (_b : Byte) (s : State) : Host.Outcome State Fault Refusal :=
  .next s.resetEdge

/-- RECOVER.101 (R107). A presented byte is dropped. -/
def execRecover101 (_valid : Bool) (_b : Byte) (s : State) : Host.Outcome State Fault Refusal := .next s.recover

/-- RECOVER.11x (R107). A presented byte is dropped. -/
def execRecover11x (_valid _low : Bool) (_b : Byte) (s : State) : Host.Outcome State Fault Refusal := .next s.recover

/-- IDLE (R104). -/
def execIdle (_phase : PhaseCode) (_b : Byte) (s : State) : Host.Outcome State Fault Refusal := .next s.idleEdge

end Sys2Proof.Machine
end

