-- ==== Sys2Proof/Machine/Dispatch.lean ====
section
/-!
DEFINITION. What each operation of the operation map does at its edge (spec 30_encoding.md R78): one arm per operation.
-/

namespace Sys2Proof.Machine

def exec (i : Instr) (s : State) : Host.Outcome State Fault Refusal :=
  match i with
  | .reset valid phase b => Sys2Proof.Machine.execReset valid phase b s
  | .recover101 valid b => Sys2Proof.Machine.execRecover101 valid b s
  | .recover11x valid low b => Sys2Proof.Machine.execRecover11x valid low b s
  | .idle phase b => Sys2Proof.Machine.execIdle phase b s
  | .startDetect => Sys2Proof.Machine.execStartDetect s
  | .noise b => Sys2Proof.Machine.execNoise b s
  | .lenReject b => Sys2Proof.Machine.execLenReject b s
  | .lenAccept b => Sys2Proof.Machine.execLenAccept b s
  | .payNext b => Sys2Proof.Machine.execPayNext b s
  | .payLast b => Sys2Proof.Machine.execPayLast b s
  | .ckMatch b => Sys2Proof.Machine.execCkMatch b s
  | .ckMismatch b => Sys2Proof.Machine.execCkMismatch b s
  | .endOk => Sys2Proof.Machine.execEndOk s
  | .endBad b => Sys2Proof.Machine.execEndBad b s

end Sys2Proof.Machine
end

