-- ==== Sys2Proof/Machine/Edge.lean ====
section
/-!
DEFINITION. One clock edge of a build `P` (decode the event word, run the operation: spec 30_encoding.md R78) and runs over
lists of input cycles and of bytes (40_transition_framework.md R108, R112).
-/

namespace Sys2Proof.Machine

/-- The edge's outcome with the edge counted. -/
def countEdge : Host.Outcome State Fault Refusal → Host.Outcome State Fault Refusal
  | .next s => .next s.afterEdge
  | .fault f => .fault f
  | .refused r => .refused r

/-- The fault a word with no row raises (R15, R78). -/
def faultOfDecode : DecodeError → Fault
  | .payloadBound => .payloadBound

/-- One rising edge of `clk` with inputs `c` (R76, R78): the event word selects the operation, which runs on the state. -/
def clockEdge (P : Params) (c : InputCycle) (s : State) : Host.Outcome State Fault Refusal :=
  match decode P s.regs (s.eventWordOf c) with
  | .ok i => countEdge (exec i s)
  | .error e => .fault (faultOfDecode e)

/-- A run: the cycles one after another, stopping at the first fault or refusal (R112). -/
def run (P : Params) : List InputCycle → State → Host.Outcome State Fault Refusal
  | [], s => .next s
  | c :: cs, s =>
    match clockEdge P c s with
    | .next t => run P cs t
    | .fault f => .fault f
    | .refused r => .refused r

/-- `Run(s, bs)` of R108 on the clocked block: one consuming edge for each byte. -/
def runBytes (P : Params) (bs : List Byte) (s : State) : Host.Outcome State Fault Refusal := run P (bs.map consuming) s

end Sys2Proof.Machine
end

