-- ==== Sys2Proof/Machine/Step.lean ====
section
/-!
DEFINITION. The machine's step: the next listed input cycle meets the state at one clock edge (spec
40_transition_framework.md R103, R112), and the host's placing of one table word as that edge's event word.
-/

namespace Sys2Proof.Machine

/-- One clock edge with the first of the listed input cycles; with none left the run has ended (R112, D21). -/
def step (s : State) : Host.Outcome State Fault Refusal :=
  match s.inputs with
  | [] => .refused .endOfRun
  | c :: cs => clockEdge Config.hw c { s with inputs := cs }

/-- `s` with a table word placed as the coming edge's event word; log entries 5 and 6. -/
def State.withFetchWord (s : State) (nbits w : Nat) : State := s.placeEvent (tableEventWord nbits w)

end Sys2Proof.Machine
end

