-- ==== Sys2Proof/Machine/Framework.lean ====
section
/-!
DEFINITION. The transition framework as the spec's pseudocode writes it (40_transition_framework.md): the byte step `Step`
(R100), CONSUME (R105) and the cycle step (R103). It is the second, independent way to say what an edge does: the first is
the operation map of R78, which `clockEdge` follows.
-/

namespace Sys2Proof.Machine

/-- `Step(s, b)` in phase `p` (R100): the next state and the event, or `Fault(PayloadBound)`. -/
def byteStep (P : Params) (p : Phase) (s : State) (b : Byte) : Except Fault (State × Event) :=
  match p with
  | .awaitStart => if b = P.startMarker then .ok (s.startDetect, .none) else .ok (s.noise, .none)
  | .awaitLength =>
    if 0 < b.toNat ∧ b.toNat < P.cap then .ok (s.lenAccept b, .none) else .ok (s.lenReject, .error .eLen)
  | .awaitPayload =>
    if ¬ s.cnt.toNat < s.exp.toNat then .error .payloadBound
    else if s.cnt.toNat + 1 < s.exp.toNat then .ok (s.payNext b, .none)
    else .ok (s.payLast b, .none)
  | .awaitChecksum => if b = s.chk then .ok (s.ckMatch, .none) else .ok (s.ckMismatch, .error .eChk)
  | .awaitEnd => if b = P.endMarker then .ok (s.endOk, .success s.exp) else .ok (s.endBad, .error .eEnd)

/-- CONSUME(b) (R105). -/
def consume (P : Params) (p : Phase) (b : Byte) (s : State) : Host.Outcome State Fault Refusal :=
  match byteStep P p s b with
  | .ok (t, ev) => .next (t.commit ev)
  | .error f => .fault f

/-- The cycle step (R103): RESET, then RECOVER, then IDLE, then CONSUME. -/
def cycleStep (P : Params) (c : InputCycle) (s : State) : Host.Outcome State Fault Refusal :=
  if c.rst then .next s.resetEdge
  else match Phase.ofCode s.phase with
    | none => .next s.recover
    | some p => if c.inValid then consume P p c.inData s else .next s.idleEdge

end Sys2Proof.Machine
end

