-- ==== Sys2Proof/Machine/Instances.lean ====
section
/-!
DEFINITION. A system of `N_INSTANCES` decoders side by side (spec 00_scope.md R11; 60_exceptions.md R210): one instance for
each byte stream, with no shared state, buffer or output.
-/

namespace Sys2Proof.Machine

/-- `n` decoder instances (R11). -/
abbrev Instances (n : Nat) := Vector State n

/-- Instance `k` takes one step with its own inputs; the system stops where that instance stops. -/
def instanceStep {n : Nat} (k : Fin n) (sys : Instances n) : Host.Outcome (Instances n) Fault Refusal :=
  match step sys[k] with
  | .next t => .next (sys.set k t)
  | .fault f => .fault f
  | .refused r => .refused r

end Sys2Proof.Machine
end

