-- ==== Sys2Proof/Machine/Ports.lean ====
section
/-!
DEFINITION. The output ports (spec 30_encoding.md R70; 40_transition_framework.md R106; 20_memory.md R52). They are
combinational functions of the state; a read has no side effect.
-/

namespace Sys2Proof.Machine

/-- `ok = ok_r` (R106). -/
def State.ok (s : State) : Bool := s.okR

/-- `err = err_r` (R106). -/
def State.err (s : State) : Bool := s.errR

/-- `ok_len = exp` (R106). -/
def State.okLen (s : State) : Byte := s.exp

/-- `in_ready = 1`: the block never refuses or delays a byte (R70, R256). -/
def State.inReady (_ : State) : Bool := true

/-- The read port for a build `P`: `rd_data = buf[rd_addr]`, and any value at or above `CAP` (R52, I7). -/
def State.readPort (P : Params) (s : State) (rdAddr : Byte) : Byte :=
  if rdAddr.toNat < P.cap then s.bufRead rdAddr.toNat
  else Config.readBeyondCap s.powerUp s.edge rdAddr.toNat

/-- `rd_data` of this hardware (R52, R106). -/
def State.rdData (s : State) (rdAddr : Byte) : Byte := s.readPort Config.hw rdAddr

end Sys2Proof.Machine
end

