-- ==== Sys2Proof/Machine/Stimulus.lean ====
section
/-!
DEFINITION. The stimulus notation of spec 30_encoding.md R82 and R83 and the wire format of R71: input programs as lists of
input cycles and of bytes. A pseudo-operation whose requirement fails is an assembly error (`none`), not a hardware event.
-/

namespace Sys2Proof.Machine

/-- `.byte b0, b1, ...`: one consuming cycle per byte (R82). -/
def byteCycles (bs : List Byte) : List InputCycle := bs.map consuming

/-- `idle n` (R82): one cycle for each listed value of `in_data`, which is any value and is never decoded (R257). -/
def idleCycles (datas : List Byte) : List InputCycle :=
  datas.map (fun d => { rst := false, inValid := false, inData := d })

/-- `reset n` (R82): one cycle for each listed value of the other two inputs, which RESET ignores (R250). -/
def resetCycles (others : List (Bool × Byte)) : List InputCycle :=
  others.map (fun o => { rst := true, inValid := o.1, inData := o.2 })

/-- A frame's bytes with any checksum byte and any terminator: START_MARKER, LENGTH, payload, CHECKSUM, END_MARKER (R71). -/
def frameBytesWith (P : Params) (ck term : Byte) (ps : List Byte) : List Byte :=
  P.startMarker :: BitVec.ofNat 8 ps.length :: (ps ++ [ck, term])

/-- A well-formed frame's bytes (R71, R73). -/
def frameBytes (P : Params) (ps : List Byte) : List Byte := frameBytesWith P (xorFold ps) P.endMarker ps

/-- The requirement on a payload's length, `1 <= N <= CAP-1` (R72). -/
abbrev legalLength (P : Params) (ps : List Byte) : Prop := 1 ≤ ps.length ∧ ps.length < P.cap

/-- `frame p0, ..., p(N-1)` (R83). -/
def frame (P : Params) (ps : List Byte) : Option (List Byte) :=
  if legalLength P ps then some (frameBytes P ps) else none

/-- `frame_badck c; p0, ..., p(N-1)` (R83), which states the requirement `c != X(p)` only. DESIGN CHOICE (log entry 14): a
payload whose length is outside `1..CAP-1` is an assembly error here too. -/
def frameBadck (P : Params) (c : Byte) (ps : List Byte) : Option (List Byte) :=
  if legalLength P ps ∧ c ≠ xorFold ps then some (frameBytesWith P c P.endMarker ps) else none

/-- `frame_badend t; p0, ..., p(N-1)` (R83), which states the requirement `t != 0x03` only. DESIGN CHOICE (log entry 14): a
payload whose length is outside `1..CAP-1` is an assembly error here too. -/
def frameBadend (P : Params) (t : Byte) (ps : List Byte) : Option (List Byte) :=
  if legalLength P ps ∧ t ≠ P.endMarker then some (frameBytesWith P (xorFold ps) t ps) else none

/-- `badlen` (R83). -/
def badlen (P : Params) : List Byte := [P.startMarker, 0x00]

/-- `partial k; p0, ..., p(N-1)`: the first `k` bytes of `frame p0, ..., p(N-1)` (R83). DEDUCED (log entry 14): what
`frame` requires of the payload is required here. -/
def partialFrame (P : Params) (k : Nat) (ps : List Byte) : Option (List Byte) :=
  if legalLength P ps ∧ k < ps.length + 4 then some ((frameBytes P ps).take k) else none

/-- `noise b0, ..., bm` (R83). -/
def noiseBytes (P : Params) (bs : List Byte) : Option (List Byte) :=
  if P.startMarker ∈ bs then none else some bs

end Sys2Proof.Machine
end

