-- ==== Sys2Proof/Safety.lean ====
section
/-!
DEFINITION. What the claims are stated in: the invariant of spec 10_state.md R27, what leaving the buffer or the trace
unchanged means, and the counting of consumed bytes.
-/

namespace Sys2Proof.Machine

/-- The phase register holds a legal code (R75). -/
abbrev State.legalPhase (s : State) : Prop := s.phase.toNat < 5

/-- R27, for a build `P`, with the buffer's canonical form and R56's bound on the entries ever written. -/
structure Inv (P : Params) (s : State) : Prop where
  /-- The phase is one of the five (R21). -/
  phase_legal : s.phase.toNat < 5
  /-- (I-a) -/
  counts : s.cnt.toNat ≤ s.exp.toNat ∧ s.exp.toNat < P.cap
  /-- (I-b) -/
  in_length : s.phase = Phase.code .awaitLength → s.exp = 0 ∧ s.cnt = 0 ∧ s.chk = 0
  /-- (I-c) -/
  in_payload : s.phase = Phase.code .awaitPayload →
    1 ≤ s.exp.toNat ∧ s.cnt.toNat < s.exp.toNat ∧ s.chk = xorFold (s.payload s.cnt.toNat)
  /-- (I-d) -/
  in_check : s.phase = Phase.code .awaitChecksum ∨ s.phase = Phase.code .awaitEnd →
    1 ≤ s.exp.toNat ∧ s.cnt = s.exp ∧ s.chk = xorFold (s.payload s.exp.toNat)
  /-- (I-e) -/
  in_start : s.phase = Phase.code .awaitStart →
    (s.exp = 0 ∧ s.cnt = 0 ∧ s.chk = 0) ∨
      (1 ≤ s.exp.toNat ∧ s.cnt = s.exp ∧ s.chk = xorFold (s.payload s.exp.toNat))
  /-- (I-f) -/
  one_pulse : ¬ (s.okR = true ∧ s.errR = true)
  /-- The buffer's canonical form. -/
  buf_wf : Memory.wf s.buf = true
  /-- R56: only entries `0..CAP-2` are ever written. -/
  buf_within : Memory.within s.buf (P.cap - 1)

/-- In build `P`, the edge with inputs `c` selects operation `i` in state `s` (R76, R78). -/
def selectedAt (P : Params) (c : InputCycle) (s : State) (i : Instr) : Prop :=
  decode P s.regs (s.eventWordOf c) = .ok i

/-- The inputs present byte `b`: `rst = 0`, `in_valid = 1`, `in_data = b` (R105). -/
def InputCycle.presents (c : InputCycle) (b : Byte) : Prop := c.rst = false ∧ c.inValid = true ∧ c.inData = b

/-- The six registers of `t` (R20 less the buffer). -/
def State.holds (t : State) (phase : Phase) (exp cnt chk : Byte) (ok err : Bool) : Prop :=
  t.phase = phase.code ∧ t.exp = exp ∧ t.cnt = cnt ∧ t.chk = chk ∧ t.okR = ok ∧ t.errR = err

/-- Every buffer entry reads after as it read before. -/
def sameBuffer (s t : State) : Prop := ∀ a : Nat, t.bufRead a = s.bufRead a

/-- Every buffer entry but `a` reads after as it read before. -/
def sameBufferExcept (a : Nat) (s t : State) : Prop := ∀ x : Nat, x ≠ a → t.bufRead x = s.bufRead x

/-- The model's own fields that only the edge count and the placing of inputs move. -/
def sameModelFields (s t : State) : Prop := t.powerUp = s.powerUp ∧ t.edge = s.edge ∧ t.inputs = s.inputs

/-- The bytes an input list consumes from a legal phase: those with `rst = 0` and `in_valid = 1` (R256). -/
def consumedBytes (cs : List InputCycle) : List Byte :=
  (cs.filter (fun c => !c.rst && c.inValid)).map (fun c => c.inData)

/-- The input list without its IDLE cycles (R108). -/
def withoutIdle (cs : List InputCycle) : List InputCycle := cs.filter (fun c => c.rst || c.inValid)

/-- `n` steps, stopping at the first fault or refusal. -/
def steps : Nat → State → Host.Outcome State Fault Refusal
  | 0, s => .next s
  | n + 1, s =>
    match step s with
    | .next t => steps n t
    | .fault f => .fault f
    | .refused r => .refused r

/-- One call of the source's `process` (R108): the cycles `cs` are listed behind those still to come, and the machine takes
one step for each of them (log entry 5). -/
def feed (cs : List InputCycle) (s : State) : Host.Outcome State Fault Refusal :=
  steps cs.length { s with inputs := s.inputs ++ cs }

/-- Successive calls of `process`, one for each chunk; a later chunk is not listed before the earlier calls are over (R108). -/
def feedChunks : List (List InputCycle) → State → Host.Outcome State Fault Refusal
  | [], s => .next s
  | cs :: rest, s =>
    match feed cs s with
    | .next t => feedChunks rest t
    | .fault f => .fault f
    | .refused r => .refused r

/-- The same outcome with the cycles `cs` listed behind those a next state still has to come. -/
def listedBehind (cs : List InputCycle) : Host.Outcome State Fault Refusal → Host.Outcome State Fault Refusal
  | .next t => .next { t with inputs := t.inputs ++ cs }
  | .fault f => .fault f
  | .refused r => .refused r

/-- The two states agree on everything a byte step's next phase, registers and event may depend on (R111). -/
def sameControl (s t : State) : Prop := t.phase = s.phase ∧ t.exp = s.exp ∧ t.cnt = s.cnt ∧ t.chk = s.chk

/-- What the trace of R112 (a) records of a well-formed frame with payload `ps`: `Success(len, payload)`. -/
def successContent (ps : List Byte) : Option (Byte × List Byte) × Option ErrorKind :=
  (some (BitVec.ofNat 8 ps.length, ps), none)

end Sys2Proof.Machine
end

