-- ==== Sys2Proof/Certificates/Slice0/Obligations.lean ====
section
/-!
DEFINITION. The statements for the provers, each about the machine and cited to a rule of spec/. Each per-operation statement
has two parts: exactly when the edge selects the operation (spec 30_encoding.md R78), and the whole next state it gives
(every register, every buffer entry, the trace, and the model's own fields).
-/

open Sys2Proof Sys2Proof.Machine

/-! The operations of no phase. -/

/-- R250. -/
def Obligations.ResetWritesResetValues : Prop :=
  ∀ s : State,
    (∀ c : InputCycle, selectedAt Config.hw c s (.reset c.inValid s.phase c.inData) ↔ c.rst = true) ∧
    ∀ (v : Bool) (p : PhaseCode) (b : Byte), ∃ t, exec (.reset v p b) s = .next t ∧
      t.holds .awaitStart 0x00 0x00 0x00 false false ∧ sameBuffer s t ∧ t.trace = s.trace ∧ sameModelFields s t

/-- R107, both rows; no state with the invariant of R27 has an illegal phase. -/
def Obligations.RecoverLeavesIllegalPhase : Prop :=
  ∀ s : State,
    (∀ c : InputCycle, selectedAt Config.hw c s (.recover101 c.inValid c.inData) ↔ c.rst = false ∧ s.phase = 0b101) ∧
    (∀ (c : InputCycle) (low : Bool), selectedAt Config.hw c s (.recover11x c.inValid low c.inData) ↔
      c.rst = false ∧ s.phase = (if low then 0b111 else 0b110)) ∧
    (∀ P : Params, Inv P s → ¬ 5 ≤ s.phase.toNat) ∧
    ∀ (v low : Bool) (b : Byte), 5 ≤ s.phase.toNat → ∃ t,
      exec (.recover101 v b) s = .next t ∧ exec (.recover11x v low b) s = .next t ∧
      t.holds .awaitStart 0x00 0x00 0x00 false false ∧ sameBuffer s t ∧ t.trace = s.trace ∧ sameModelFields s t

/-- R104. -/
def Obligations.IdleHoldsAllState : Prop :=
  ∀ s : State,
    (∀ c : InputCycle, selectedAt Config.hw c s (.idle s.phase c.inData) ↔
      c.rst = false ∧ s.phase.toNat < 5 ∧ c.inValid = false) ∧
    ∀ (p : Phase) (b : Byte), s.phase = p.code → ∃ t, exec (.idle p.code b) s = .next t ∧
      t.holds p s.exp s.cnt s.chk false false ∧ sameBuffer s t ∧ t.trace = s.trace ∧ sameModelFields s t

/-! AwaitStart. -/

/-- R120. -/
def Obligations.StartDetectOpensAttempt : Prop :=
  ∀ s : State,
    (∀ c : InputCycle, selectedAt Config.hw c s .startDetect ↔ c.presents 0x02 ∧ s.phase = 0b000) ∧
    (s.phase = 0b000 → ∃ t, exec .startDetect s = .next t ∧
      t.holds .awaitLength 0x00 0x00 0x00 false false ∧ sameBuffer s t ∧ t.trace = s.trace ∧ sameModelFields s t)

/-- R121. -/
def Obligations.NoiseIsAbsorbed : Prop :=
  ∀ (s : State) (b : Byte),
    (∀ c : InputCycle, selectedAt Config.hw c s (.noise b) ↔ c.presents b ∧ s.phase = 0b000 ∧ b ≠ 0x02) ∧
    (s.phase = 0b000 → b ≠ 0x02 → ∃ t, exec (.noise b) s = .next t ∧
      t.holds .awaitStart s.exp s.cnt s.chk false false ∧ sameBuffer s t ∧ t.trace = s.trace ∧ sameModelFields s t)

/-! AwaitLength, for every build. -/

/-- R130. -/
def Obligations.LenAcceptArmsPayload : Prop :=
  ∀ (P : Params) (s : State) (b : Byte),
    (∀ c : InputCycle, selectedAt P c s (.lenAccept b) ↔
      c.presents b ∧ s.phase = 0b001 ∧ 0 < b.toNat ∧ b.toNat < P.cap) ∧
    (s.phase = 0b001 → 0 < b.toNat → b.toNat < P.cap → ∃ t, exec (.lenAccept b) s = .next t ∧
      t.holds .awaitPayload b s.cnt s.chk false false ∧ sameBuffer s t ∧ t.trace = s.trace ∧ sameModelFields s t)

/-- R131, with the case `CAP = 256`; in a state with the invariant of R27 the registers it clears are 0 already. -/
def Obligations.LenRejectSignalsError : Prop :=
  ∀ (P : Params) (s : State) (b : Byte),
    (∀ c : InputCycle, selectedAt P c s (.lenReject b) ↔
      c.presents b ∧ s.phase = 0b001 ∧ (b.toNat = 0 ∨ P.cap ≤ b.toNat)) ∧
    (∀ c : InputCycle, selectedAt Config.hw c s (.lenReject b) ↔ s.eventWordOf c = 0x0900 ∧ b = 0x00) ∧
    (s.phase = 0b001 → b.toNat = 0 ∨ P.cap ≤ b.toNat → ∃ t, exec (.lenReject b) s = .next t ∧
      t.holds .awaitStart 0x00 0x00 0x00 false true ∧ sameBuffer s t ∧
      t.trace = s.trace ++ [.error s.edge .eLen] ∧ sameModelFields s t ∧
      (Inv P s → t.exp = s.exp ∧ t.cnt = s.cnt ∧ t.chk = s.chk))

/-! AwaitPayload. -/

/-- R140; in a state with the invariant of R27 its precondition holds. -/
def Obligations.PayNextStoresAndFolds : Prop :=
  ∀ (s : State) (b : Byte),
    (∀ c : InputCycle, selectedAt Config.hw c s (.payNext b) ↔
      c.presents b ∧ s.phase = 0b010 ∧ s.cnt.toNat < s.exp.toNat ∧ s.cnt.toNat + 1 < s.exp.toNat) ∧
    (s.phase = 0b010 → s.cnt.toNat + 1 < s.exp.toNat → ∃ t, exec (.payNext b) s = .next t ∧
      t.holds .awaitPayload s.exp (s.cnt + 1) (s.chk ^^^ b) false false ∧ t.cnt.toNat = s.cnt.toNat + 1 ∧
      t.bufRead s.cnt.toNat = b ∧ sameBufferExcept s.cnt.toNat s t ∧ t.trace = s.trace ∧ sameModelFields s t) ∧
    (∀ P : Params, Inv P s → s.phase = 0b010 → s.cnt.toNat < s.exp.toNat)

/-- R141; in a state with the invariant of R27 the buffer then holds the whole payload, and `chk` its fold. -/
def Obligations.PayLastStoresAndFolds : Prop :=
  ∀ (s : State) (b : Byte),
    (∀ c : InputCycle, selectedAt Config.hw c s (.payLast b) ↔
      c.presents b ∧ s.phase = 0b010 ∧ s.cnt.toNat < s.exp.toNat ∧ s.cnt.toNat + 1 = s.exp.toNat) ∧
    (s.phase = 0b010 → s.cnt.toNat + 1 = s.exp.toNat → ∃ t, exec (.payLast b) s = .next t ∧
      t.holds .awaitChecksum s.exp (s.cnt + 1) (s.chk ^^^ b) false false ∧ t.cnt = s.exp ∧
      t.bufRead s.cnt.toNat = b ∧ sameBufferExcept s.cnt.toNat s t ∧ t.trace = s.trace ∧ sameModelFields s t ∧
      ∀ P : Params, Inv P s →
        t.payload t.exp.toNat = s.payload s.cnt.toNat ++ [b] ∧ t.chk = xorFold (t.payload t.exp.toNat))

/-- Where the one fault of the model is raised. First clause: an edge raises it exactly in AwaitPayload with `cnt >= exp`
(R15, R78, R100). Second clause: THE MODEL'S CHOICE, not the spec's (log entry 3, DESIGN CHOICE: a meaning outside its
selection checks only `cnt < exp`; log entry 11, DEDUCED: the two meanings check it again): `exec`, in whatever phase, faults
exactly for PAY_NEXT and PAY_LAST when `cnt < exp` fails. Third clause: in a state with the invariant of R27 no edge faults. -/
def Obligations.PayloadBoundFaultsExactlyThere : Prop :=
  ∀ (P : Params) (s : State),
    (∀ (c : InputCycle) (f : Fault), clockEdge P c s = .fault f ↔
      f = .payloadBound ∧ c.rst = false ∧ c.inValid = true ∧ s.phase = 0b010 ∧ ¬ s.cnt.toNat < s.exp.toNat) ∧
    (∀ (i : Instr) (f : Fault), exec i s = .fault f ↔
      f = .payloadBound ∧ ¬ s.cnt.toNat < s.exp.toNat ∧ ∃ b, i = .payNext b ∨ i = .payLast b) ∧
    (Inv P s → ∀ (c : InputCycle) (f : Fault), clockEdge P c s ≠ .fault f)

/-! AwaitChecksum. -/

/-- R150. -/
def Obligations.CkMatchGoesToAwaitEnd : Prop :=
  ∀ (s : State) (b : Byte),
    (∀ c : InputCycle, selectedAt Config.hw c s (.ckMatch b) ↔ c.presents b ∧ s.phase = 0b011 ∧ b = s.chk) ∧
    (s.phase = 0b011 → b = s.chk → ∃ t, exec (.ckMatch b) s = .next t ∧
      t.holds .awaitEnd s.exp s.cnt s.chk false false ∧ sameBuffer s t ∧ t.trace = s.trace ∧ sameModelFields s t)

/-- R151. -/
def Obligations.CkMismatchSignalsError : Prop :=
  ∀ (s : State) (b : Byte),
    (∀ c : InputCycle, selectedAt Config.hw c s (.ckMismatch b) ↔ c.presents b ∧ s.phase = 0b011 ∧ b ≠ s.chk) ∧
    (s.phase = 0b011 → b ≠ s.chk → ∃ t, exec (.ckMismatch b) s = .next t ∧
      t.holds .awaitStart 0x00 0x00 0x00 false true ∧ sameBuffer s t ∧
      t.trace = s.trace ++ [.error s.edge .eChk] ∧ sameModelFields s t)

/-! AwaitEnd. -/

/-- R160. -/
def Obligations.EndOkSignalsSuccess : Prop :=
  ∀ s : State,
    (∀ c : InputCycle, selectedAt Config.hw c s .endOk ↔ c.presents 0x03 ∧ s.phase = 0b100) ∧
    (s.phase = 0b100 → ∃ t, exec .endOk s = .next t ∧
      t.holds .awaitStart s.exp s.cnt s.chk true false ∧ t.ok = true ∧ t.okLen = s.exp ∧ sameBuffer s t ∧
      t.trace = s.trace ++ [.success s.edge s.exp (s.payload s.exp.toNat)] ∧ sameModelFields s t)

/-- R161. -/
def Obligations.EndBadSignalsError : Prop :=
  ∀ (s : State) (b : Byte),
    (∀ c : InputCycle, selectedAt Config.hw c s (.endBad b) ↔ c.presents b ∧ s.phase = 0b100 ∧ b ≠ 0x03) ∧
    (s.phase = 0b100 → b ≠ 0x03 → ∃ t, exec (.endBad b) s = .next t ∧
      t.holds .awaitStart s.exp s.cnt s.chk false true ∧ sameBuffer s t ∧
      t.trace = s.trace ++ [.error s.edge .eEnd] ∧ sameModelFields s t)

/-! Reset state, decoding, and the step. -/

/-- 10_state.md section 8, R250: the registers right after reset. -/
def Obligations.ResetStateHoldsResetValues : Prop :=
  State.reset.holds .awaitStart 0x00 0x00 0x00 false false ∧ State.reset.trace = [] ∧
    ∀ a : Nat, Memory.lookup State.reset.buf a = none

/-- R78: some of the event words of 95_test_vectors.md, written out from the fields of R76, decode as its tables say. -/
def Obligations.WrittenEventWordsDecode : Prop :=
  decode Config.hw ⟨4, 4, 0x00⟩ 0b0_1_000_00000010 = .ok .startDetect ∧
  decode Config.hw ⟨0, 0, 0x00⟩ 0b0_1_000_00000011 = .ok (.noise 0x03) ∧
  decode Config.hw ⟨0, 0, 0x00⟩ 0b0_1_001_00000000 = .ok (.lenReject 0x00) ∧
  decode Config.hw ⟨0, 0, 0x00⟩ 0b0_1_001_11111111 = .ok (.lenAccept 0xFF) ∧
  decode Config.hw ⟨0, 2, 0x00⟩ 0b0_1_010_01000001 = .ok (.payNext 0x41) ∧
  decode Config.hw ⟨254, 255, 0x01⟩ 0b0_1_010_11111110 = .ok (.payLast 0xFE) ∧
  decode Config.hw ⟨2, 2, 0x03⟩ 0b0_1_011_00000011 = .ok (.ckMatch 0x03) ∧
  decode Config.hw ⟨1, 1, 0x7F⟩ 0b0_1_011_11111111 = .ok (.ckMismatch 0xFF) ∧
  decode Config.hw ⟨2, 2, 0x03⟩ 0b0_1_100_00000011 = .ok .endOk ∧
  decode Config.hw ⟨1, 1, 0x05⟩ 0b0_1_100_00000010 = .ok (.endBad 0x02) ∧
  decode Config.hw ⟨1, 3, 0x10⟩ 0b0_0_010_01010101 = .ok (.idle 0b010 0x55) ∧
  decode Config.hw ⟨2, 2, 0x03⟩ 0b1_1_100_00000011 = .ok (.reset true 0b100 0x03) ∧
  decode Config.hw ⟨0, 0, 0x00⟩ 0b0_1_110_00000010 = .ok (.recover11x true false 0x02) ∧
  decode Config.hw ⟨0, 0, 0x00⟩ 0b0_1_101_00000010 = .ok (.recover101 true 0x02)

/-- Decode and encode agree, in every build: an operation whose operands R78 admits, in registers its row's condition admits,
is what its own event word decodes to. -/
def Obligations.DecodeOfEncodeIsIdentity : Prop :=
  ∀ (P : Params) (r : Regs) (i : Instr), i.wellFormed P = true → i.enabled r = true → decode P r (encode P i) = .ok i

/-- The other direction: what an event word decodes to is well formed and enabled, and encodes to that very word. -/
def Obligations.EncodeOfDecodeIsIdentity : Prop :=
  ∀ (P : Params) (r : Regs) (ev : EventWord) (i : Instr), decode P r ev = .ok i →
    encode P i = ev ∧ i.wellFormed P = true ∧ i.enabled r = true

/-- R79: an event word with `rst = 1`, an illegal phase, `in_valid = 0` or a phase other than AwaitPayload always decodes, and
an AwaitPayload one decodes exactly when `cnt < exp`. -/
def Obligations.DecodeIsTotalButForPayloadBound : Prop :=
  ∀ (P : Params) (r : Regs) (ev : EventWord),
    (∃ i, decode P r ev = .ok i) ↔
      ¬ (eventRst ev = false ∧ eventValid ev = true ∧ eventPhase ev = 0b010 ∧ ¬ r.cnt.toNat < r.exp.toNat)

/-- R78 against R100, R103 and R105: the operation map and the pseudocode of the cycle step say the same of every edge. -/
def Obligations.OperationMapAgreesWithCycleStep : Prop :=
  ∀ (P : Params) (c : InputCycle) (s : State), clockEdge P c s = countEdge (cycleStep P c s)

/-- A step runs the operation that the event word decodes to (R76, R78, R103). THE MODEL'S CHOICE: that the edge's inputs are
the head of the state's own list and are taken off it (log entry 5, DESIGN CHOICE), and that the edge is counted in State
(log entry 4, DESIGN CHOICE). -/
def Obligations.StepRunsDecodedOperation : Prop :=
  ∀ (s : State) (c : InputCycle) (cs : List InputCycle) (i : Instr), s.inputs = c :: cs →
    selectedAt Config.hw c s i → step s = countEdge (exec i { s with inputs := cs })

/-- The model's choice (log entry 5, after R112): with no input cycle left the run has ended. -/
def Obligations.StepWithoutInputsEndsRun : Prop :=
  ∀ s : State, step s = .refused .endOfRun ↔ s.inputs = []

/-- A placed table word is what the very next step runs (log entries 5 and 6). -/
def Obligations.PlacedWordIsRunNext : Prop :=
  ∀ (s : State) (w : Nat) (i : Instr), decodeTableWord 16 w = some i →
    step (s.withFetchWord 16 w) = countEdge (exec i { s.withFetchWord 16 w with inputs := s.inputs })

/-! Invariants of every edge, and what follows from them. -/

/-- The invariant of R27 holds right after reset, in every build, and right after a reset edge that meets any power-up state,
an illegal phase among them (R250, R251, R252). -/
def Obligations.InvariantHoldsAtReset : Prop :=
  ∀ P : Params, P.legal → Inv P State.reset ∧
    ∀ (s : State) (c : InputCycle), s.buf = [] → c.rst = true → ∃ t, clockEdge P c s = .next t ∧ Inv P t

/-- The invariant of R27 is kept by every step, from every state that has it. -/
def Obligations.StepKeepsInvariant : Prop := ∀ s t : State, Inv Config.hw s → step s = .next t → Inv Config.hw t

/-- R27, in every build: it holds in every state that a run from a state with it reaches, and it holds at reset. -/
def Obligations.InvariantHoldsInReachableStates : Prop :=
  ∀ P : Params, P.legal → Inv P State.reset ∧
    ∀ (cs : List InputCycle) (s t : State), Inv P s → run P cs s = .next t → Inv P t

/-- The buffer's canonical form is kept by every step, from every state. -/
def Obligations.StepKeepsBufferCanonical : Prop :=
  ∀ s t : State, Memory.wf s.buf = true → step s = .next t → Memory.wf t.buf = true

/-- R27, R15, I4: from a state with the invariant, no list of input cycles ends in a fault or a refusal. -/
def Obligations.RunsFromInvariantStatesNeverStop : Prop :=
  ∀ P : Params, P.legal → ∀ (cs : List InputCycle) (s : State), Inv P s → ∃ t, run P cs s = .next t

/-- R102, R105, R112: an edge gives at most one notification, and the pulses and the trace say the same of it. -/
def Obligations.PulsesMatchTrace : Prop :=
  ∀ (P : Params) (c : InputCycle) (s t : State), clockEdge P c s = .next t →
    (t.ok = true ∧ t.err = false ∧ s.phase = 0b100 ∧ c.presents P.endMarker ∧
      t.trace = s.trace ++ [.success s.edge t.okLen (t.payload t.okLen.toNat)]) ∨
    (t.ok = false ∧ t.err = true ∧ ∃ k, t.trace = s.trace ++ [.error s.edge k] ∧
      (k = .eLen ↔ s.phase = 0b001) ∧ (k = .eChk ↔ s.phase = 0b011) ∧ (k = .eEnd ↔ s.phase = 0b100)) ∨
    (t.ok = false ∧ t.err = false ∧ t.trace = s.trace)

/-- R204: an edge that signals goes to AwaitStart, writes no buffer entry, and either clears or holds all three registers. -/
def Obligations.SignallingEdgeResynchronises : Prop :=
  ∀ (P : Params) (c : InputCycle) (s t : State), clockEdge P c s = .next t → t.ok = true ∨ t.err = true →
    t.phase = 0b000 ∧ sameBuffer s t ∧
    (s.phase = 0b100 → t.exp = s.exp ∧ t.cnt = s.cnt ∧ t.chk = s.chk) ∧
    (s.phase ≠ 0b100 → t.exp = 0x00 ∧ t.cnt = 0x00 ∧ t.chk = 0x00)

/-- R109: two pulses never fall in adjacent cycles, whatever the state before. -/
def Obligations.PulsesAreNeverAdjacent : Prop :=
  ∀ (P : Params) (c d : InputCycle) (s t u : State), clockEdge P c s = .next t → clockEdge P d t = .next u →
    t.ok = true ∨ t.err = true → u.ok = false ∧ u.err = false

/-- R51: an edge changes a buffer entry only by consuming a payload byte, only the entry `cnt`, and to that byte. -/
def Obligations.OnlyPayloadBytesWriteBuffer : Prop :=
  ∀ (P : Params) (c : InputCycle) (s t : State) (a : Nat), clockEdge P c s = .next t → t.bufRead a ≠ s.bufRead a →
    c.presents (t.bufRead a) ∧ s.phase = 0b010 ∧ a = s.cnt.toNat ∧ s.cnt.toNat < s.exp.toNat

/-- R56: entry `CAP-1` is never written in any run. -/
def Obligations.LastEntryIsNeverWritten : Prop :=
  ∀ P : Params, P.legal → ∀ (cs : List InputCycle) (s t : State), Inv P s → run P cs s = .next t →
    t.bufRead (P.cap - 1) = s.bufRead (P.cap - 1)

/-- R10: in every build, both counters fit in `ceil(log2(CAP))` bits; for `CAP = 256` that is 8. -/
def Obligations.CountersFitTheirWidth : Prop :=
  Config.hw.counterWidth = 8 ∧
    ∀ (P : Params) (s : State), P.legal → Inv P s →
      s.exp.toNat < 2 ^ P.counterWidth ∧ s.cnt.toNat < 2 ^ P.counterWidth

/-- R22, R23, R24: which edges write `exp`, `cnt` and `chk`, and what they write. -/
def Obligations.RegisterWriters : Prop :=
  ∀ (P : Params) (c : InputCycle) (s t : State), clockEdge P c s = .next t →
    (t.exp = s.exp ∧ t.cnt = s.cnt ∧ t.chk = s.chk) ∨
    (t.exp = 0x00 ∧ t.cnt = 0x00 ∧ t.chk = 0x00 ∧
      (c.rst = true ∨ 5 ≤ s.phase.toNat ∨ (s.phase = 0b000 ∧ c.presents P.startMarker) ∨
        (s.phase = 0b001 ∧ c.presents c.inData ∧ (c.inData.toNat = 0 ∨ P.cap ≤ c.inData.toNat)) ∨
        (s.phase = 0b011 ∧ c.presents c.inData ∧ c.inData ≠ s.chk))) ∨
    (t.exp = c.inData ∧ t.cnt = s.cnt ∧ t.chk = s.chk ∧ s.phase = 0b001 ∧ c.presents c.inData ∧
      0 < c.inData.toNat ∧ c.inData.toNat < P.cap) ∨
    (t.exp = s.exp ∧ t.cnt = s.cnt + 1 ∧ t.chk = s.chk ^^^ c.inData ∧ s.phase = 0b010 ∧ c.presents c.inData ∧
      s.cnt.toNat < s.exp.toNat)

/-- R207, R120: only START_DETECT enters AwaitLength; in any other legal phase a byte 0x02 starts no attempt. -/
def Obligations.OnlyStartMarkerInAwaitStartOpensAttempt : Prop :=
  ∀ (P : Params) (c : InputCycle) (s t : State), clockEdge P c s = .next t → t.phase = 0b001 →
    (s.phase = 0b001 ∧ c.rst = false ∧ c.inValid = false) ∨ (s.phase = 0b000 ∧ c.presents P.startMarker)

/-- R111: the next phase, registers and pulses depend on the inputs and on `phase`, `cnt`, `exp`, `chk` alone. -/
def Obligations.NoLookaheadNoHistory : Prop :=
  ∀ (P : Params) (c : InputCycle) (s s' t : State), sameControl s s' → clockEdge P c s = .next t →
    ∃ t', clockEdge P c s' = .next t' ∧ sameControl t t' ∧ t'.ok = t.ok ∧ t'.err = t.err ∧ t'.okLen = t.okLen

/-- R250, R253: after a reset edge every register is the same whatever the state before, and the buffer is as it was. -/
def Obligations.ResetDiscardsAttempt : Prop :=
  ∀ (P : Params) (c : InputCycle) (s : State), c.rst = true → ∃ t, clockEdge P c s = .next t ∧
    t.holds .awaitStart 0x00 0x00 0x00 false false ∧ sameBuffer s t ∧ t.trace = s.trace

/-! Runs. -/

/-- R104, R203: any number of IDLE cycles, in any phase, leaves the attempt pending and signals nothing. -/
def Obligations.IdleCyclesKeepAttemptPending : Prop :=
  ∀ (P : Params) (datas : List Byte) (s : State), s.legalPhase → datas ≠ [] → ∃ t,
    run P (idleCycles datas) s = .next t ∧ sameControl s t ∧ t.ok = false ∧ t.err = false ∧ sameBuffer s t ∧
      t.trace = s.trace

/-- R108, R214 (P3), over the machine's steps and the state's own input list (THE MODEL'S CHOICE, log entry 5). First clause:
cycles listed behind those that `n` steps take change nothing these steps do, and stay listed. Second clause: successive calls,
empty chunks too, give the outcome of one call with the whole stream. Third clause: a well-formed frame, however it is split
into chunks, gives its one success, with its length and payload, at the frame's last byte. -/
def Obligations.ChunkBoundariesDoNotMatter : Prop :=
  (∀ (n : Nat) (s : State) (cs : List InputCycle), n ≤ s.inputs.length →
    steps n { s with inputs := s.inputs ++ cs } = listedBehind cs (steps n s)) ∧
  (∀ (chunks : List (List InputCycle)) (s : State), feedChunks chunks s = feed chunks.flatten s) ∧
  (∀ (s : State) (ps : List Byte) (chunks : List (List Byte)), s.phase = 0b000 → s.inputs = [] →
    legalLength Config.hw ps → chunks.flatten = frameBytes Config.hw ps → ∃ t,
      feedChunks (chunks.map byteCycles) s = .next t ∧ t.phase = 0b000 ∧ t.inputs = [] ∧ t.ok = true ∧ t.err = false ∧
        t.okLen.toNat = ps.length ∧
        t.trace = s.trace ++ [.success (s.edge + (ps.length + 3)) (BitVec.ofNat 8 ps.length) ps])

/-- R108: IDLE cycles between bytes change neither the notifications nor their order, nor the state they lead to. -/
def Obligations.IdleCyclesDoNotChangeEvents : Prop :=
  ∀ (P : Params) (cs : List InputCycle) (s t : State), s.legalPhase → run P cs s = .next t → ∃ u,
    run P (withoutIdle cs) s = .next u ∧ sameControl t u ∧ sameBuffer t u ∧
      u.trace.map Notice.content = t.trace.map Notice.content

/-- R202, R214 (P4), R259: from AwaitStart a well-formed frame gives exactly one success, `N + 4` edges later, with its length
and its payload at the ports. -/
def Obligations.WellFormedFrameSucceeds : Prop :=
  ∀ P : Params, P.legal → ∀ (s : State) (ps : List Byte), s.phase = 0b000 → legalLength P ps → ∃ t,
    runBytes P (frameBytes P ps) s = .next t ∧ t.phase = 0b000 ∧ t.ok = true ∧ t.err = false ∧
      t.okLen.toNat = ps.length ∧ (∀ i, (h : i < ps.length) → t.readPort P (BitVec.ofNat 8 i) = ps[i]) ∧
      t.edge = s.edge + (ps.length + 4) ∧
      t.trace = s.trace ++ [.success (s.edge + (ps.length + 3)) (BitVec.ofNat 8 ps.length) ps]

/-- R151, R214 (P4): a wrong checksum byte, a single-bit flip among them, gives exactly one error and no success. -/
def Obligations.WrongChecksumGivesOneError : Prop :=
  (∀ (s : State) (ps : List Byte) (c : Byte), s.phase = 0b000 → legalLength Config.hw ps → c ≠ xorFold ps → ∃ t,
    runBytes Config.hw (frameBytesWith Config.hw c 0x03 ps) s = .next t ∧ t.phase = 0b000 ∧ t.ok = false ∧ t.err = false ∧
      t.trace = s.trace ++ [.error (s.edge + (ps.length + 2)) .eChk]) ∧
  ∀ (x : Byte) (i : Nat), i < 8 → x ^^^ (1#8 <<< i) ≠ x

/-- R161, R207: a bad terminator, START_MARKER too, gives exactly one error and is consumed. -/
def Obligations.BadTerminatorGivesOneError : Prop :=
  ∀ P : Params, P.legal → ∀ (s : State) (ps : List Byte) (term : Byte), s.phase = 0b000 → legalLength P ps →
    term ≠ P.endMarker → ∃ t, runBytes P (frameBytesWith P (xorFold ps) term ps) s = .next t ∧ t.phase = 0b000 ∧
      t.ok = false ∧ t.err = true ∧ t.okLen.toNat = ps.length ∧
      t.trace = s.trace ++ [.error (s.edge + (ps.length + 3)) .eEnd]

/-- R214 (P1, P2): from AwaitStart, any bytes without START_MARKER and then a well-formed frame give exactly one success and
no error. -/
def Obligations.NoiseBeforeFrameIsAbsorbed : Prop :=
  ∀ P : Params, P.legal → ∀ (s : State) (noise ps : List Byte), s.phase = 0b000 → P.startMarker ∉ noise →
    legalLength P ps → ∃ t, runBytes P (noise ++ frameBytes P ps) s = .next t ∧ t.ok = true ∧ t.phase = 0b000 ∧
      t.trace.map Notice.content = s.trace.map Notice.content ++ [successContent ps]

/-- R215 (P5): well-formed frames one after another give one success each, in order, each with its own payload. -/
def Obligations.BackToBackFramesSucceedInOrder : Prop :=
  ∀ P : Params, P.legal → ∀ (s : State) (frames : List (List Byte)), s.phase = 0b000 →
    (∀ ps ∈ frames, legalLength P ps) → ∃ t, runBytes P (frames.flatMap (frameBytes P)) s = .next t ∧ t.phase = 0b000 ∧
      t.trace.map Notice.content = s.trace.map Notice.content ++ frames.map successContent

/-- R202: no sequence but a well-formed frame gives a success. -/
def Obligations.SuccessOnlyAfterWellFormedFrame : Prop :=
  ∀ P : Params, P.legal → ∀ (s t : State) (bytes : List Byte), s.phase = 0b000 → bytes ≠ [] →
    runBytes P bytes s = .next t → t.ok = true → ∃ before ps, bytes = before ++ frameBytes P ps ∧ legalLength P ps ∧
      t.okLen.toNat = ps.length ∧ t.payload ps.length = ps

/-- R59, R254: from AwaitStart, entry `i` keeps its byte until the `(3 + i)`-th byte from there is consumed, or later. -/
def Obligations.BufferIsStableAfterSuccess : Prop :=
  ∀ (P : Params) (cs : List InputCycle) (s t : State) (i : Nat), s.phase = 0b000 → run P cs s = .next t →
    (consumedBytes cs).length < 3 + i → t.bufRead i = s.bufRead i

/-- R255: the edge that ends an `ok` cycle clears `ok_len` if it consumes START_MARKER and holds it if it consumes noise. -/
def Obligations.LengthOutputAfterSuccess : Prop :=
  ∀ (s t : State) (b : Byte), s.phase = 0b000 → clockEdge Config.hw (consuming b) s = .next t →
    (b = 0x02 → t.okLen = 0x00) ∧ (b ≠ 0x02 → t.okLen = s.okLen)

/-- R52, R106: the output ports, and the read port's every address. -/
def Obligations.OutputPortsShowState : Prop :=
  ∀ (s : State) (a : Byte), s.ok = s.okR ∧ s.err = s.errR ∧ s.okLen = s.exp ∧ s.inReady = true ∧
    s.rdData a = s.bufRead a.toNat

/-- R256: the same byte held for two edges is consumed twice; here START_MARKER, then the length 2. -/
def Obligations.HeldByteIsConsumedTwice : Prop :=
  ∀ s : State, s.phase = 0b000 → ∃ t, runBytes Config.hw [0x02, 0x02] s = .next t ∧
    t.holds .awaitPayload 0x02 0x00 0x00 false false ∧ sameBuffer s t ∧ t.trace = s.trace

/-- R210: a step of one instance leaves every other instance as it was, and is that instance's own step. THE MODEL'S CHOICE:
that a system advances by one instance's step at a time (log entry 13, DESIGN CHOICE). -/
def Obligations.InstancesAreIndependent : Prop :=
  ∀ (n : Nat) (k : Fin n) (sys sys' : Instances n), instanceStep k sys = .next sys' →
    step sys[k] = .next sys'[k] ∧ ∀ j : Fin n, j ≠ k → sys'[j] = sys[j]
end

