-- ==== Sys2Proof/Laws/Decode.lean ====
section
/-!
SUPPORT. Lemmas about the event word and the operation map: the word's fields, what each row's mask and pattern test, and
`decode` read in the word's fields. Cite `decode_eventWord`; nothing needs to unfold the table of rows again.
-/

namespace Sys2Proof

@[simp] theorem eventRst_eventWord (rst v : Bool) (p : PhaseCode) (b : Byte) : eventRst (eventWord rst v p b) = rst := by
  rw [eventRst, eventWord, BitVec.getLsbD_append, BitVec.getLsbD_append, BitVec.getLsbD_append]
  simp

@[simp] theorem eventValid_eventWord (rst v : Bool) (p : PhaseCode) (b : Byte) :
    eventValid (eventWord rst v p b) = v := by
  rw [eventValid, eventWord, BitVec.getLsbD_append, BitVec.getLsbD_append, BitVec.getLsbD_append]
  simp

@[simp] theorem eventPhase_eventWord (rst v : Bool) (p : PhaseCode) (b : Byte) :
    eventPhase (eventWord rst v p b) = p := by
  apply BitVec.eq_of_getLsbD_eq
  intro i hi
  rw [eventPhase, eventWord, BitVec.getLsbD_extractLsb', BitVec.getLsbD_append, BitVec.getLsbD_append]
  simp [hi]

@[simp] theorem eventByte_eventWord (rst v : Bool) (p : PhaseCode) (b : Byte) :
    eventByte (eventWord rst v p b) = b := by
  apply BitVec.eq_of_getLsbD_eq
  intro i hi
  rw [eventByte, eventWord, BitVec.getLsbD_extractLsb', BitVec.getLsbD_append]
  simp [hi]

/-- Every event word is the word of its own fields. -/
theorem eventWord_fields (ev : EventWord) :
    eventWord (eventRst ev) (eventValid ev) (eventPhase ev) (eventByte ev) = ev := by
  apply BitVec.eq_of_getLsbD_eq
  intro i hi
  rw [eventWord, BitVec.getLsbD_append, BitVec.getLsbD_append, BitVec.getLsbD_append, eventByte, eventPhase,
    eventRst, eventValid]
  interval_cases i <;> simp

/-- An event word determines its fields. -/
theorem eventWord_inj (rst rst' v v' : Bool) (p p' : PhaseCode) (b b' : Byte) :
    eventWord rst v p b = eventWord rst' v' p' b' ↔ rst = rst' ∧ v = v' ∧ p = p' ∧ b = b' := by
  constructor
  · intro h
    have h1 := congrArg eventRst h
    have h2 := congrArg eventValid h
    have h3 := congrArg eventPhase h
    have h4 := congrArg eventByte h
    simp only [eventRst_eventWord, eventValid_eventWord, eventPhase_eventWord, eventByte_eventWord] at h1 h2 h3 h4
    exact ⟨h1, h2, h3, h4⟩
  · rintro ⟨rfl, rfl, rfl, rfl⟩
    rfl

/-- A mask and a pattern with no bit in the byte's place test the word's upper five bits alone. -/
theorem maskUpper (h m q : BitVec 5) (b : Byte) :
    ((h ++ b : EventWord) &&& (m ++ 0#8 : EventWord) = (q ++ 0#8 : EventWord)) ↔ h &&& m = q := by
  rw [BitVec.and_append, BitVec.and_zero]
  exact BitVec.append_left_inj _

theorem row_reset (rst v : Bool) (p : PhaseCode) (b : Byte) :
    (eventWord rst v p b &&& 0x1000 = 0x1000) ↔ rst = true := by
  refine (maskUpper _ 0b10000 0b10000 b).trans ?_
  revert rst v p
  decide

theorem row_recover101 (rst v : Bool) (p : PhaseCode) (b : Byte) :
    (eventWord rst v p b &&& 0x1700 = 0x0500) ↔ rst = false ∧ p = 0b101 := by
  refine (maskUpper _ 0b10111 0b00101 b).trans ?_
  revert rst v p
  decide

theorem row_recover11x (rst v : Bool) (p : PhaseCode) (b : Byte) :
    (eventWord rst v p b &&& 0x1600 = 0x0600) ↔ rst = false ∧ (p = 0b110 ∨ p = 0b111) := by
  refine (maskUpper _ 0b10110 0b00110 b).trans ?_
  revert rst v p
  decide

theorem row_idle (rst v : Bool) (p : PhaseCode) (b : Byte) :
    (eventWord rst v p b &&& 0x1800 = 0x0000) ↔ rst = false ∧ v = false := by
  refine (maskUpper _ 0b11000 0b00000 b).trans ?_
  revert rst v p
  decide

theorem row_start (rst v : Bool) (p : PhaseCode) (b : Byte) :
    (eventWord rst v p b &&& 0x1F00 = 0x0800) ↔ rst = false ∧ v = true ∧ p = 0b000 := by
  refine (maskUpper _ 0b11111 0b01000 b).trans ?_
  revert rst v p
  decide

theorem row_length (rst v : Bool) (p : PhaseCode) (b : Byte) :
    (eventWord rst v p b &&& 0x1F00 = 0x0900) ↔ rst = false ∧ v = true ∧ p = 0b001 := by
  refine (maskUpper _ 0b11111 0b01001 b).trans ?_
  revert rst v p
  decide

theorem row_payload (rst v : Bool) (p : PhaseCode) (b : Byte) :
    (eventWord rst v p b &&& 0x1F00 = 0x0A00) ↔ rst = false ∧ v = true ∧ p = 0b010 := by
  refine (maskUpper _ 0b11111 0b01010 b).trans ?_
  revert rst v p
  decide

theorem row_checksum (rst v : Bool) (p : PhaseCode) (b : Byte) :
    (eventWord rst v p b &&& 0x1F00 = 0x0B00) ↔ rst = false ∧ v = true ∧ p = 0b011 := by
  refine (maskUpper _ 0b11111 0b01011 b).trans ?_
  revert rst v p
  decide

theorem row_end (rst v : Bool) (p : PhaseCode) (b : Byte) :
    (eventWord rst v p b &&& 0x1F00 = 0x0C00) ↔ rst = false ∧ v = true ∧ p = 0b100 := by
  refine (maskUpper _ 0b11111 0b01100 b).trans ?_
  revert rst v p
  decide

theorem row_all (rst v : Bool) (p : PhaseCode) (b : Byte) : eventWord rst v p b &&& 0x1FFF = eventWord rst v p b :=
  BitVec.and_allOnes

theorem startPattern : ∀ m : Byte, 0x0800 ||| m.zeroExtend 13 = eventWord false true 0b000 m := by decide +kernel

theorem endPattern : ∀ m : Byte, 0x0C00 ||| m.zeroExtend 13 = eventWord false true 0b100 m := by decide +kernel

/-- A phase code is one of eight. -/
theorem phaseCode_cases : ∀ p : PhaseCode,
    p = 0b000 ∨ p = 0b001 ∨ p = 0b010 ∨ p = 0b011 ∨ p = 0b100 ∨ p = 0b101 ∨ p = 0b110 ∨ p = 0b111 := by decide

@[simp] theorem ofCode_code (p : Phase) : Phase.ofCode p.code = some p := by cases p <;> rfl

/-- A code decodes to a phase exactly when it is that phase's code. -/
theorem ofCode_eq_some (c : PhaseCode) (p : Phase) : Phase.ofCode c = some p ↔ c = p.code := by
  revert c; cases p <;> decide

theorem ofCode_eq_none : ∀ c : PhaseCode, Phase.ofCode c = none ↔ 5 ≤ c.toNat := by decide

/-- Below another byte, adding one to a byte does not wrap. -/
theorem toNat_succ_of_lt {x y : Byte} (h : x.toNat < y.toNat) : (x + 1).toNat = x.toNat + 1 := by
  have := y.isLt
  simp [BitVec.toNat_add]
  omega

/-- Row 9's condition, in plain numbers. -/
@[simp] theorem morePayload_iff (r : Regs) : r.morePayload = true ↔ r.cnt.toNat + 1 < r.exp.toNat := by
  simp only [Regs.morePayload, decide_eq_true_eq]
  constructor
  · rintro ⟨h, h'⟩
    rwa [toNat_succ_of_lt h] at h'
  · intro h
    have h1 : r.cnt.toNat < r.exp.toNat := by omega
    exact ⟨h1, (toNat_succ_of_lt h1).symm ▸ h⟩

/-- Row 10's condition, in plain numbers. -/
@[simp] theorem lastPayload_iff (r : Regs) : r.lastPayload = true ↔ r.cnt.toNat + 1 = r.exp.toNat := by
  simp only [Regs.lastPayload, decide_eq_true_eq]
  constructor
  · rintro ⟨h, h'⟩
    rwa [toNat_succ_of_lt h] at h'
  · intro h
    have h1 : r.cnt.toNat < r.exp.toNat := by omega
    exact ⟨h1, (toNat_succ_of_lt h1).symm ▸ h⟩

/-- What the operation map selects, in the fields of the event word (R78). -/
def selects (P : Params) (r : Regs) (rst v : Bool) (p : PhaseCode) (b : Byte) : Except DecodeError Instr :=
  if rst = true then .ok (.reset v p b)
  else if p = 0b101 then .ok (.recover101 v b)
  else if p = 0b110 ∨ p = 0b111 then .ok (.recover11x v (p.getLsbD 0) b)
  else if v = false then .ok (.idle p b)
  else if p = 0b000 then if b = P.startMarker then .ok .startDetect else .ok (.noise b)
  else if p = 0b001 then if b.toNat = 0 ∨ P.cap ≤ b.toNat then .ok (.lenReject b) else .ok (.lenAccept b)
  else if p = 0b010 then
    if r.cnt.toNat + 1 < r.exp.toNat then .ok (.payNext b)
    else if r.cnt.toNat + 1 = r.exp.toNat then .ok (.payLast b)
    else .error .payloadBound
  else if p = 0b011 then if b = r.chk then .ok (.ckMatch b) else .ok (.ckMismatch b)
  else if b = P.endMarker then .ok .endOk else .ok (.endBad b)

/-- The operation map, read in the fields of the event word (R78). -/
theorem decode_eventWord (P : Params) (r : Regs) (rst v : Bool) (p : PhaseCode) (b : Byte) :
    decode P r (eventWord rst v p b) = selects P r rst v p b := by
  have hs : (eventWord rst v p b = eventWord false true 0b000 P.startMarker) ↔ _ := eventWord_inj ..
  have he : (eventWord rst v p b = eventWord false true 0b100 P.endMarker) ↔ _ := eventWord_inj ..
  simp only [decode, opcodeRows, List.find?, Row.accepts, noCondition, row_reset, row_recover101, row_recover11x,
    row_idle, row_start, row_length, row_payload, row_checksum, row_end, row_all, startPattern, endPattern, hs, he,
    eventByte_eventWord, selects]
  cases rst
  · cases v
    · rcases phaseCode_cases p with rfl | rfl | rfl | rfl | rfl | rfl | rfl | rfl <;> simp
    · rcases phaseCode_cases p with rfl | rfl | rfl | rfl | rfl | rfl | rfl | rfl
      · by_cases hb : b = P.startMarker <;> simp [hb]
      · by_cases hb : b.toNat = 0 ∨ P.cap ≤ b.toNat
        · simp [hb]
        · have : 0 < b.toNat ∧ b.toNat < P.cap := by omega
          simp [hb, this]
      · by_cases h1 : r.cnt.toNat + 1 < r.exp.toNat
        · have h2 := (morePayload_iff r).mpr h1
          simp [h1, h2]
        · have h2 := mt (morePayload_iff r).mp h1
          by_cases h3 : r.cnt.toNat + 1 = r.exp.toNat
          · have h4 := (lastPayload_iff r).mpr h3
            simp [h3, h2, h4]
          · have h4 := mt (lastPayload_iff r).mp h3
            simp [h1, h2, h3, h4]
      · by_cases hb : b = r.chk <;> simp [hb]
      · by_cases hb : b = P.endMarker <;> simp [hb]
      · simp
      · simp
      · simp
  · simp

end Sys2Proof
end

