-- ==== Sys2Proof/Laws/State.lean ====
section
/-!
SUPPORT. The field lemmas of the state's updates, one for each field of each update, true by `rfl` and tagged simp; the
lemmas that write every operation with those updates; and the reads (registers, buffer, payload) through them. Later
proofs cite these and unfold no record update.
-/

namespace Sys2Proof.Machine

@[simp] theorem State.withPhase_phase (s : State) (p : Phase) : (s.withPhase p).phase = p.code := rfl
@[simp] theorem State.withPhase_exp (s : State) (p : Phase) : (s.withPhase p).exp = s.exp := rfl
@[simp] theorem State.withPhase_cnt (s : State) (p : Phase) : (s.withPhase p).cnt = s.cnt := rfl
@[simp] theorem State.withPhase_chk (s : State) (p : Phase) : (s.withPhase p).chk = s.chk := rfl
@[simp] theorem State.withPhase_buf (s : State) (p : Phase) : (s.withPhase p).buf = s.buf := rfl
@[simp] theorem State.withPhase_okR (s : State) (p : Phase) : (s.withPhase p).okR = s.okR := rfl
@[simp] theorem State.withPhase_errR (s : State) (p : Phase) : (s.withPhase p).errR = s.errR := rfl
@[simp] theorem State.withPhase_powerUp (s : State) (p : Phase) : (s.withPhase p).powerUp = s.powerUp := rfl
@[simp] theorem State.withPhase_edge (s : State) (p : Phase) : (s.withPhase p).edge = s.edge := rfl
@[simp] theorem State.withPhase_trace (s : State) (p : Phase) : (s.withPhase p).trace = s.trace := rfl
@[simp] theorem State.withPhase_inputs (s : State) (p : Phase) : (s.withPhase p).inputs = s.inputs := rfl

@[simp] theorem State.resetAttempt_phase (s : State) : (s.resetAttempt).phase = s.phase := rfl
@[simp] theorem State.resetAttempt_exp (s : State) : (s.resetAttempt).exp = 0 := rfl
@[simp] theorem State.resetAttempt_cnt (s : State) : (s.resetAttempt).cnt = 0 := rfl
@[simp] theorem State.resetAttempt_chk (s : State) : (s.resetAttempt).chk = 0 := rfl
@[simp] theorem State.resetAttempt_buf (s : State) : (s.resetAttempt).buf = s.buf := rfl
@[simp] theorem State.resetAttempt_okR (s : State) : (s.resetAttempt).okR = s.okR := rfl
@[simp] theorem State.resetAttempt_errR (s : State) : (s.resetAttempt).errR = s.errR := rfl
@[simp] theorem State.resetAttempt_powerUp (s : State) : (s.resetAttempt).powerUp = s.powerUp := rfl
@[simp] theorem State.resetAttempt_edge (s : State) : (s.resetAttempt).edge = s.edge := rfl
@[simp] theorem State.resetAttempt_trace (s : State) : (s.resetAttempt).trace = s.trace := rfl
@[simp] theorem State.resetAttempt_inputs (s : State) : (s.resetAttempt).inputs = s.inputs := rfl

@[simp] theorem State.acceptByte_phase (s : State) (b : Byte) : (s.acceptByte b).phase = s.phase := rfl
@[simp] theorem State.acceptByte_exp (s : State) (b : Byte) : (s.acceptByte b).exp = s.exp := rfl
@[simp] theorem State.acceptByte_cnt (s : State) (b : Byte) : (s.acceptByte b).cnt = s.cnt + 1 := rfl
@[simp] theorem State.acceptByte_chk (s : State) (b : Byte) : (s.acceptByte b).chk = s.chk ^^^ b := rfl
@[simp] theorem State.acceptByte_buf (s : State) (b : Byte) : (s.acceptByte b).buf = Memory.write s.buf s.cnt.toNat b := rfl
@[simp] theorem State.acceptByte_okR (s : State) (b : Byte) : (s.acceptByte b).okR = s.okR := rfl
@[simp] theorem State.acceptByte_errR (s : State) (b : Byte) : (s.acceptByte b).errR = s.errR := rfl
@[simp] theorem State.acceptByte_powerUp (s : State) (b : Byte) : (s.acceptByte b).powerUp = s.powerUp := rfl
@[simp] theorem State.acceptByte_edge (s : State) (b : Byte) : (s.acceptByte b).edge = s.edge := rfl
@[simp] theorem State.acceptByte_trace (s : State) (b : Byte) : (s.acceptByte b).trace = s.trace := rfl
@[simp] theorem State.acceptByte_inputs (s : State) (b : Byte) : (s.acceptByte b).inputs = s.inputs := rfl

@[simp] theorem State.commit_phase (s : State) (ev : Event) : (s.commit ev).phase = s.phase := rfl
@[simp] theorem State.commit_exp (s : State) (ev : Event) : (s.commit ev).exp = s.exp := rfl
@[simp] theorem State.commit_cnt (s : State) (ev : Event) : (s.commit ev).cnt = s.cnt := rfl
@[simp] theorem State.commit_chk (s : State) (ev : Event) : (s.commit ev).chk = s.chk := rfl
@[simp] theorem State.commit_buf (s : State) (ev : Event) : (s.commit ev).buf = s.buf := rfl
@[simp] theorem State.commit_okR (s : State) (ev : Event) : (s.commit ev).okR = ev.isSuccess := rfl
@[simp] theorem State.commit_errR (s : State) (ev : Event) : (s.commit ev).errR = ev.isError := rfl
@[simp] theorem State.commit_powerUp (s : State) (ev : Event) : (s.commit ev).powerUp = s.powerUp := rfl
@[simp] theorem State.commit_edge (s : State) (ev : Event) : (s.commit ev).edge = s.edge := rfl
@[simp] theorem State.commit_trace (s : State) (ev : Event) : (s.commit ev).trace = s.trace ++ s.noticesOf ev := rfl
@[simp] theorem State.commit_inputs (s : State) (ev : Event) : (s.commit ev).inputs = s.inputs := rfl

@[simp] theorem State.afterEdge_phase (s : State) : (s.afterEdge).phase = s.phase := rfl
@[simp] theorem State.afterEdge_exp (s : State) : (s.afterEdge).exp = s.exp := rfl
@[simp] theorem State.afterEdge_cnt (s : State) : (s.afterEdge).cnt = s.cnt := rfl
@[simp] theorem State.afterEdge_chk (s : State) : (s.afterEdge).chk = s.chk := rfl
@[simp] theorem State.afterEdge_buf (s : State) : (s.afterEdge).buf = s.buf := rfl
@[simp] theorem State.afterEdge_okR (s : State) : (s.afterEdge).okR = s.okR := rfl
@[simp] theorem State.afterEdge_errR (s : State) : (s.afterEdge).errR = s.errR := rfl
@[simp] theorem State.afterEdge_powerUp (s : State) : (s.afterEdge).powerUp = s.powerUp := rfl
@[simp] theorem State.afterEdge_edge (s : State) : (s.afterEdge).edge = s.edge + 1 := rfl
@[simp] theorem State.afterEdge_trace (s : State) : (s.afterEdge).trace = s.trace := rfl
@[simp] theorem State.afterEdge_inputs (s : State) : (s.afterEdge).inputs = s.inputs := rfl

@[simp] theorem State.resetEdge_phase (s : State) : (s.resetEdge).phase = 0b000 := rfl
@[simp] theorem State.resetEdge_exp (s : State) : (s.resetEdge).exp = 0 := rfl
@[simp] theorem State.resetEdge_cnt (s : State) : (s.resetEdge).cnt = 0 := rfl
@[simp] theorem State.resetEdge_chk (s : State) : (s.resetEdge).chk = 0 := rfl
@[simp] theorem State.resetEdge_buf (s : State) : (s.resetEdge).buf = s.buf := rfl
@[simp] theorem State.resetEdge_okR (s : State) : (s.resetEdge).okR = false := rfl
@[simp] theorem State.resetEdge_errR (s : State) : (s.resetEdge).errR = false := rfl
@[simp] theorem State.resetEdge_powerUp (s : State) : (s.resetEdge).powerUp = s.powerUp := rfl
@[simp] theorem State.resetEdge_edge (s : State) : (s.resetEdge).edge = s.edge := rfl
@[simp] theorem State.resetEdge_trace (s : State) : (s.resetEdge).trace = s.trace := rfl
@[simp] theorem State.resetEdge_inputs (s : State) : (s.resetEdge).inputs = s.inputs := rfl

/-! Every operation, written with the updates above. -/

@[simp] theorem State.recover_eq (s : State) : s.recover = (s.resetAttempt.withPhase .awaitStart).commit .none := rfl
@[simp] theorem State.idleEdge_eq (s : State) : s.idleEdge = s.commit .none := rfl
@[simp] theorem State.startDetect_eq (s : State) : s.startDetect = s.resetAttempt.withPhase .awaitLength := rfl
@[simp] theorem State.noise_eq (s : State) : s.noise = s.withPhase .awaitStart := rfl
@[simp] theorem State.lenReject_eq (s : State) : s.lenReject = s.resetAttempt.withPhase .awaitStart := rfl
@[simp] theorem State.payNext_eq (s : State) (b : Byte) : s.payNext b = (s.acceptByte b).withPhase .awaitPayload := rfl
@[simp] theorem State.payLast_eq (s : State) (b : Byte) : s.payLast b = (s.acceptByte b).withPhase .awaitChecksum := rfl
@[simp] theorem State.ckMatch_eq (s : State) : s.ckMatch = s.withPhase .awaitEnd := rfl
@[simp] theorem State.ckMismatch_eq (s : State) : s.ckMismatch = s.resetAttempt.withPhase .awaitStart := rfl
@[simp] theorem State.endOk_eq (s : State) : s.endOk = s.withPhase .awaitStart := rfl
@[simp] theorem State.endBad_eq (s : State) : s.endBad = s.withPhase .awaitStart := rfl

@[simp] theorem State.lenAccept_phase (s : State) (b : Byte) : (s.lenAccept b).phase = 0b010 := rfl
@[simp] theorem State.lenAccept_exp (s : State) (b : Byte) : (s.lenAccept b).exp = b := rfl
@[simp] theorem State.lenAccept_cnt (s : State) (b : Byte) : (s.lenAccept b).cnt = s.cnt := rfl
@[simp] theorem State.lenAccept_chk (s : State) (b : Byte) : (s.lenAccept b).chk = s.chk := rfl
@[simp] theorem State.lenAccept_buf (s : State) (b : Byte) : (s.lenAccept b).buf = s.buf := rfl
@[simp] theorem State.lenAccept_okR (s : State) (b : Byte) : (s.lenAccept b).okR = s.okR := rfl
@[simp] theorem State.lenAccept_errR (s : State) (b : Byte) : (s.lenAccept b).errR = s.errR := rfl
@[simp] theorem State.lenAccept_powerUp (s : State) (b : Byte) : (s.lenAccept b).powerUp = s.powerUp := rfl
@[simp] theorem State.lenAccept_edge (s : State) (b : Byte) : (s.lenAccept b).edge = s.edge := rfl
@[simp] theorem State.lenAccept_trace (s : State) (b : Byte) : (s.lenAccept b).trace = s.trace := rfl
@[simp] theorem State.lenAccept_inputs (s : State) (b : Byte) : (s.lenAccept b).inputs = s.inputs := rfl

/-! What each operation's meaning answers. -/

theorem exec_reset (s : State) (v : Bool) (p : PhaseCode) (b : Byte) : exec (.reset v p b) s = .next (s.resetEdge) := rfl
theorem exec_recover101 (s : State) (v : Bool) (b : Byte) : exec (.recover101 v b) s = .next (s.recover) := rfl
theorem exec_recover11x (s : State) (v low : Bool) (b : Byte) : exec (.recover11x v low b) s = .next (s.recover) := rfl
theorem exec_idle (s : State) (p : PhaseCode) (b : Byte) : exec (.idle p b) s = .next (s.idleEdge) := rfl
theorem exec_startDetect (s : State) : exec .startDetect s = .next (s.startDetect.commit .none) := rfl
theorem exec_noise (s : State) (b : Byte) : exec (.noise b) s = .next (s.noise.commit .none) := rfl
theorem exec_lenReject (s : State) (b : Byte) : exec (.lenReject b) s = .next (s.lenReject.commit (.error .eLen)) := rfl
theorem exec_lenAccept (s : State) (b : Byte) : exec (.lenAccept b) s = .next ((s.lenAccept b).commit .none) := rfl
theorem exec_ckMatch (s : State) (b : Byte) : exec (.ckMatch b) s = .next (s.ckMatch.commit .none) := rfl
theorem exec_ckMismatch (s : State) (b : Byte) : exec (.ckMismatch b) s = .next (s.ckMismatch.commit (.error .eChk)) := rfl
theorem exec_endOk (s : State) : exec .endOk s = .next (s.endOk.commit (.success s.exp)) := rfl
theorem exec_endBad (s : State) (b : Byte) : exec (.endBad b) s = .next (s.endBad.commit (.error .eEnd)) := rfl
theorem exec_payNext {s : State} (b : Byte) (h : s.cnt.toNat < s.exp.toNat) :
    exec (.payNext b) s = .next ((s.payNext b).commit .none) := if_pos h
theorem exec_payNext_fault {s : State} (b : Byte) (h : ¬ s.cnt.toNat < s.exp.toNat) :
    exec (.payNext b) s = .fault .payloadBound := if_neg h
theorem exec_payLast {s : State} (b : Byte) (h : s.cnt.toNat < s.exp.toNat) :
    exec (.payLast b) s = .next ((s.payLast b).commit .none) := if_pos h
theorem exec_payLast_fault {s : State} (b : Byte) (h : ¬ s.cnt.toNat < s.exp.toNat) :
    exec (.payLast b) s = .fault .payloadBound := if_neg h

/-! The events' flags. -/

@[simp] theorem isSuccess_none : Event.none.isSuccess = false := rfl
@[simp] theorem isSuccess_success (n : Byte) : (Event.success n).isSuccess = true := rfl
@[simp] theorem isSuccess_error (k : ErrorKind) : (Event.error k).isSuccess = false := rfl
@[simp] theorem isError_none : Event.none.isError = false := rfl
@[simp] theorem isError_success (n : Byte) : (Event.success n).isError = false := rfl
@[simp] theorem isError_error (k : ErrorKind) : (Event.error k).isError = true := rfl
@[simp] theorem noticesOf_none (s : State) : s.noticesOf .none = [] := rfl
@[simp] theorem noticesOf_success (s : State) (n : Byte) :
    s.noticesOf (.success n) = [.success s.edge n (s.payload n.toNat)] := rfl
@[simp] theorem noticesOf_error (s : State) (k : ErrorKind) : s.noticesOf (.error k) = [.error s.edge k] := rfl

/-! The registers a condition reads, and the reads of the buffer. -/

@[simp] theorem State.regs_cnt (s : State) : s.regs.cnt = s.cnt := rfl
@[simp] theorem State.regs_exp (s : State) : s.regs.exp = s.exp := rfl
@[simp] theorem State.regs_chk (s : State) : s.regs.chk = s.chk := rfl

/-- A buffer read depends on the buffer and the power-up draw alone. -/
theorem bufRead_congr {s t : State} (hb : t.buf = s.buf) (hp : t.powerUp = s.powerUp) (a : Nat) :
    t.bufRead a = s.bufRead a := by
  simp only [State.bufRead, hb, hp]

/-- A payload depends on the buffer and the power-up draw alone. -/
theorem payload_congr {s t : State} (hb : t.buf = s.buf) (hp : t.powerUp = s.powerUp) (n : Nat) :
    t.payload n = s.payload n := by
  simp only [State.payload]
  exact List.map_congr_left (fun a _ => bufRead_congr hb hp a)

@[simp] theorem State.withPhase_bufRead (s : State) (p : Phase) (a : Nat) : (s.withPhase p).bufRead a = s.bufRead a := rfl
@[simp] theorem State.withPhase_payload (s : State) (p : Phase) (n : Nat) : (s.withPhase p).payload n = s.payload n := rfl
@[simp] theorem State.resetAttempt_bufRead (s : State) (a : Nat) : (s.resetAttempt).bufRead a = s.bufRead a := rfl
@[simp] theorem State.resetAttempt_payload (s : State) (n : Nat) : (s.resetAttempt).payload n = s.payload n := rfl
@[simp] theorem State.commit_bufRead (s : State) (ev : Event) (a : Nat) : (s.commit ev).bufRead a = s.bufRead a := rfl
@[simp] theorem State.commit_payload (s : State) (ev : Event) (n : Nat) : (s.commit ev).payload n = s.payload n := rfl
@[simp] theorem State.afterEdge_bufRead (s : State) (a : Nat) : (s.afterEdge).bufRead a = s.bufRead a := rfl
@[simp] theorem State.afterEdge_payload (s : State) (n : Nat) : (s.afterEdge).payload n = s.payload n := rfl
@[simp] theorem State.resetEdge_bufRead (s : State) (a : Nat) : (s.resetEdge).bufRead a = s.bufRead a := rfl
@[simp] theorem State.resetEdge_payload (s : State) (n : Nat) : (s.resetEdge).payload n = s.payload n := rfl
@[simp] theorem State.lenAccept_bufRead (s : State) (b : Byte) (a : Nat) : (s.lenAccept b).bufRead a = s.bufRead a := rfl
@[simp] theorem State.lenAccept_payload (s : State) (b : Byte) (n : Nat) : (s.lenAccept b).payload n = s.payload n := rfl

end Sys2Proof.Machine
end

