-- ==== Sys2Proof/Laws/Memory.lean ====
section
/-!
SUPPORT. The laws of the payload buffer: a read after a write of the same entry gives the byte written, a write leaves every
other entry alone, and every write keeps the canonical form (spec 20_memory.md R50 to R56); and the payload and its fold.
-/

namespace Sys2Proof.Machine

/-- A read after a write to the same entry. -/
@[simp] theorem lookup_write_same (m : Memory) (a : Nat) (v : Byte) : Memory.lookup (Memory.write m a v) a = some v := by
  induction m with
  | nil => simp [Memory.write, Memory.lookup]
  | cons x m ih =>
    obtain ⟨k, w⟩ := x
    simp only [Memory.write]
    split
    · simp [Memory.lookup]
    · split
      · simp [Memory.lookup]
      · rename_i h1 h2
        simp [Memory.lookup, ih, Ne.symm h2]

/-- A write leaves every other entry alone. -/
theorem lookup_write_other (m : Memory) {a x : Nat} (v : Byte) (h : x ≠ a) :
    Memory.lookup (Memory.write m a v) x = Memory.lookup m x := by
  induction m with
  | nil => simp [Memory.write, Memory.lookup, Ne.symm h]
  | cons y m ih =>
    obtain ⟨k, w⟩ := y
    simp only [Memory.write]
    split
    · simp [Memory.lookup, Ne.symm h]
    · split
      · rename_i h1 h2
        subst h2
        simp [Memory.lookup, Ne.symm h]
      · simp [Memory.lookup, ih]

/-- What a write lists: the written entry, and entries listed before. -/
theorem mem_write {m : Memory} {a : Nat} {v : Byte} {x : Host.Cell} (h : x ∈ Memory.write m a v) :
    x = (a, v) ∨ x ∈ m := by
  induction m with
  | nil => simpa [Memory.write] using h
  | cons y m ih =>
    obtain ⟨k, w⟩ := y
    simp only [Memory.write] at h
    split at h
    · simpa using h
    · split at h
      · rcases List.mem_cons.mp h with h | h
        · exact .inl h
        · exact .inr (List.mem_cons_of_mem _ h)
      · rcases List.mem_cons.mp h with h | h
        · exact .inr (h ▸ List.mem_cons_self)
        · rcases ih h with h | h
          · exact .inl h
          · exact .inr (List.mem_cons_of_mem _ h)

/-- A write keeps the addresses strictly rising. -/
theorem rising_write {m : Memory} (a : Nat) (v : Byte) (h : m.Pairwise (fun x y => x.1 < y.1)) :
    (Memory.write m a v).Pairwise (fun x y => x.1 < y.1) := by
  induction m with
  | nil => simp [Memory.write]
  | cons y m ih =>
    obtain ⟨k, w⟩ := y
    obtain ⟨hk, hm⟩ := List.pairwise_cons.mp h
    simp only [Memory.write]
    split
    · rename_i hlt
      refine List.pairwise_cons.mpr ⟨fun x hx => ?_, h⟩
      rcases List.mem_cons.mp hx with rfl | hx
      · exact hlt
      · exact Nat.lt_trans hlt (hk x hx)
    · split
      · rename_i heq
        subst heq
        exact List.pairwise_cons.mpr ⟨hk, hm⟩
      · rename_i h1 h2
        refine List.pairwise_cons.mpr ⟨fun x hx => ?_, ih hm⟩
        rcases mem_write hx with rfl | hx
        · show k < a
          omega
        · exact hk x hx

theorem wf_iff (m : Memory) :
    Memory.wf m = true ↔ m.Pairwise (fun x y => x.1 < y.1) ∧ ∀ x ∈ m, x.1 < 256 := by
  simp [Memory.wf]

/-- A write inside the address space keeps the canonical form. -/
theorem wf_write {m : Memory} {a : Nat} (v : Byte) (ha : a < 256) (h : Memory.wf m = true) :
    Memory.wf (Memory.write m a v) = true := by
  obtain ⟨h1, h2⟩ := (wf_iff m).mp h
  refine (wf_iff _).mpr ⟨rising_write a v h1, fun x hx => ?_⟩
  rcases mem_write hx with rfl | hx
  · exact ha
  · exact h2 x hx

theorem within_nil (n : Nat) : Memory.within [] n := fun _ h => absurd h List.not_mem_nil

/-- A write below a bound keeps every written entry below it. -/
theorem within_write {m : Memory} {a n : Nat} (v : Byte) (ha : a < n) (h : Memory.within m n) :
    Memory.within (Memory.write m a v) n := by
  intro x hx
  rcases mem_write hx with rfl | hx
  · exact ha
  · exact h x hx

/-- The entry at the write address reads as the accepted byte (R140, R141). -/
@[simp] theorem acceptByte_bufRead_same (s : State) (b : Byte) : (s.acceptByte b).bufRead s.cnt.toNat = b := by
  simp [State.bufRead]

/-- Every other entry reads as before (R51). -/
theorem acceptByte_bufRead_other (s : State) (b : Byte) {x : Nat} (h : x ≠ s.cnt.toNat) :
    (s.acceptByte b).bufRead x = s.bufRead x := by
  simp [State.bufRead, lookup_write_other _ _ h]

@[simp] theorem payload_length (s : State) (n : Nat) : (s.payload n).length = n := by simp [State.payload]

theorem payload_zero (s : State) : s.payload 0 = [] := rfl

theorem payload_succ (s : State) (n : Nat) : s.payload (n + 1) = s.payload n ++ [s.bufRead n] := by
  simp [State.payload, List.range_succ]

/-- The entries below the write address are those of before. -/
theorem acceptByte_payload (s : State) (b : Byte) : (s.acceptByte b).payload s.cnt.toNat = s.payload s.cnt.toNat := by
  refine List.map_congr_left (fun a ha => acceptByte_bufRead_other s b ?_)
  have := List.mem_range.mp ha
  omega

/-- The payload with the accepted byte at its end (R51, R53). -/
theorem acceptByte_payload_succ (s : State) (b : Byte) :
    (s.acceptByte b).payload (s.cnt.toNat + 1) = s.payload s.cnt.toNat ++ [b] := by
  rw [payload_succ, acceptByte_payload, acceptByte_bufRead_same]

@[simp] theorem xorFold_nil : xorFold [] = 0 := rfl

/-- One more byte folds in at the end (R142). -/
@[simp] theorem xorFold_snoc (ps : List Byte) (b : Byte) : xorFold (ps ++ [b]) = xorFold ps ^^^ b := by
  simp [xorFold, List.foldl_append]

end Sys2Proof.Machine
end

