-- ==== Sys2Proof/Laws/Edge.lean ====
section
/-!
SUPPORT. What one clock edge can do, said once: `EdgeStep` lists the ways an edge gives a next state, one constructor for
each operation of the operation map (the two RECOVER rows together), and `clockEdge_next_iff` says that these are all. Later
proofs take an edge apart with `cases` on it and unfold neither `decode` nor `exec`.
-/

namespace Sys2Proof.Machine

/-- The ways an edge with inputs `c` takes `s` to a next state in build `P` (R78). -/
inductive EdgeStep (P : Params) (c : InputCycle) (s : State) : State → Prop where
  | reset (h : c.rst = true) : EdgeStep P c s s.resetEdge.afterEdge
  | recover (h : c.rst = false) (hp : 5 ≤ s.phase.toNat) : EdgeStep P c s s.recover.afterEdge
  | idle (h : c.rst = false) (hp : s.phase.toNat < 5) (hv : c.inValid = false) : EdgeStep P c s s.idleEdge.afterEdge
  | startDetect (h : c.rst = false) (hv : c.inValid = true) (hp : s.phase = Phase.code .awaitStart)
      (hb : c.inData = P.startMarker) : EdgeStep P c s (s.startDetect.commit .none).afterEdge
  | noise (h : c.rst = false) (hv : c.inValid = true) (hp : s.phase = Phase.code .awaitStart)
      (hb : c.inData ≠ P.startMarker) : EdgeStep P c s (s.noise.commit .none).afterEdge
  | lenReject (h : c.rst = false) (hv : c.inValid = true) (hp : s.phase = Phase.code .awaitLength)
      (hb : c.inData.toNat = 0 ∨ P.cap ≤ c.inData.toNat) :
      EdgeStep P c s (s.lenReject.commit (.error .eLen)).afterEdge
  | lenAccept (h : c.rst = false) (hv : c.inValid = true) (hp : s.phase = Phase.code .awaitLength)
      (hb : 0 < c.inData.toNat ∧ c.inData.toNat < P.cap) :
      EdgeStep P c s ((s.lenAccept c.inData).commit .none).afterEdge
  | payNext (h : c.rst = false) (hv : c.inValid = true) (hp : s.phase = Phase.code .awaitPayload)
      (hb : s.cnt.toNat + 1 < s.exp.toNat) : EdgeStep P c s ((s.payNext c.inData).commit .none).afterEdge
  | payLast (h : c.rst = false) (hv : c.inValid = true) (hp : s.phase = Phase.code .awaitPayload)
      (hb : s.cnt.toNat + 1 = s.exp.toNat) : EdgeStep P c s ((s.payLast c.inData).commit .none).afterEdge
  | ckMatch (h : c.rst = false) (hv : c.inValid = true) (hp : s.phase = Phase.code .awaitChecksum)
      (hb : c.inData = s.chk) : EdgeStep P c s (s.ckMatch.commit .none).afterEdge
  | ckMismatch (h : c.rst = false) (hv : c.inValid = true) (hp : s.phase = Phase.code .awaitChecksum)
      (hb : c.inData ≠ s.chk) : EdgeStep P c s (s.ckMismatch.commit (.error .eChk)).afterEdge
  | endOk (h : c.rst = false) (hv : c.inValid = true) (hp : s.phase = Phase.code .awaitEnd)
      (hb : c.inData = P.endMarker) : EdgeStep P c s (s.endOk.commit (.success s.exp)).afterEdge
  | endBad (h : c.rst = false) (hv : c.inValid = true) (hp : s.phase = Phase.code .awaitEnd)
      (hb : c.inData ≠ P.endMarker) : EdgeStep P c s (s.endBad.commit (.error .eEnd)).afterEdge

/-- An edge whose event word decodes runs that operation. -/
theorem clockEdge_of_decode {P : Params} {c : InputCycle} {s : State} {i : Instr}
    (h : decode P s.regs (s.eventWordOf c) = .ok i) : clockEdge P c s = countEdge (exec i s) := by
  simp only [clockEdge, h]

/-- An edge in the fields of the event word. -/
theorem clockEdge_of_selects {P : Params} {c : InputCycle} {s : State} {i : Instr}
    (h : selects P s.regs c.rst c.inValid s.phase c.inData = .ok i) : clockEdge P c s = countEdge (exec i s) :=
  clockEdge_of_decode ((decode_eventWord ..).trans h)

/-- Every listed way is what the edge does. -/
theorem EdgeStep.clockEdge_eq {P : Params} {c : InputCycle} {s t : State} (h : EdgeStep P c s t) :
    clockEdge P c s = .next t := by
  cases h with
  | reset h => exact clockEdge_of_selects (i := .reset c.inValid s.phase c.inData) (by simp [selects, h])
  | recover h hp =>
    rcases phaseCode_cases s.phase with e | e | e | e | e | e | e | e
    case inr.inr.inr.inr.inr.inl =>
      exact clockEdge_of_selects (i := .recover101 c.inValid c.inData) (by simp [selects, h, e])
    case inr.inr.inr.inr.inr.inr.inl =>
      exact clockEdge_of_selects (i := .recover11x c.inValid false c.inData) (by simp [selects, h, e])
    case inr.inr.inr.inr.inr.inr.inr =>
      exact clockEdge_of_selects (i := .recover11x c.inValid true c.inData) (by simp [selects, h, e])
    all_goals exact absurd hp (by rw [e]; decide)
  | idle h hp hv =>
    refine clockEdge_of_selects (i := .idle s.phase c.inData) ?_
    rcases phaseCode_cases s.phase with e | e | e | e | e | e | e | e
    case inr.inr.inr.inr.inr.inl => exact absurd hp (by rw [e]; decide)
    case inr.inr.inr.inr.inr.inr.inl => exact absurd hp (by rw [e]; decide)
    case inr.inr.inr.inr.inr.inr.inr => exact absurd hp (by rw [e]; decide)
    all_goals simp [selects, h, hv, e]
  | startDetect h hv hp hb => exact clockEdge_of_selects (i := .startDetect) (by simp [selects, h, hv, hp, hb, Phase.code])
  | noise h hv hp hb => exact clockEdge_of_selects (i := .noise c.inData) (by simp [selects, h, hv, hp, hb, Phase.code])
  | lenReject h hv hp hb =>
    exact clockEdge_of_selects (i := .lenReject c.inData) (by simp [selects, h, hv, hp, hb, Phase.code])
  | lenAccept h hv hp hb =>
    refine clockEdge_of_selects (i := .lenAccept c.inData) ?_
    have : ¬ (c.inData.toNat = 0 ∨ P.cap ≤ c.inData.toNat) := by omega
    simp [selects, h, hv, hp, this, Phase.code]
  | payNext h hv hp hb =>
    have h1 : s.cnt.toNat < s.exp.toNat := by omega
    refine (clockEdge_of_selects (i := .payNext c.inData) ?_).trans (by simp only [exec, execPayNext, if_pos h1]; rfl)
    simp [selects, h, hv, hp, Phase.code, hb]
  | payLast h hv hp hb =>
    have h1 : s.cnt.toNat < s.exp.toNat := by omega
    refine (clockEdge_of_selects (i := .payLast c.inData) ?_).trans (by simp only [exec, execPayLast, if_pos h1]; rfl)
    simp [selects, h, hv, hp, Phase.code, hb]
  | ckMatch h hv hp hb => exact clockEdge_of_selects (i := .ckMatch c.inData) (by simp [selects, h, hv, hp, hb, Phase.code])
  | ckMismatch h hv hp hb =>
    exact clockEdge_of_selects (i := .ckMismatch c.inData) (by simp [selects, h, hv, hp, hb, Phase.code])
  | endOk h hv hp hb => exact clockEdge_of_selects (i := .endOk) (by simp [selects, h, hv, hp, hb, Phase.code])
  | endBad h hv hp hb => exact clockEdge_of_selects (i := .endBad c.inData) (by simp [selects, h, hv, hp, hb, Phase.code])

/-- An edge sees only its own inputs: whatever cycles are listed to come, it does the same and leaves them listed. -/
theorem EdgeStep.withInputs {P : Params} {c : InputCycle} {s t : State} (h : EdgeStep P c s t) (l : List InputCycle) :
    EdgeStep P c { s with inputs := l } { t with inputs := l } := by
  cases h with
  | reset h => exact .reset h
  | recover h hp => exact .recover (s := { s with inputs := l }) h hp
  | idle h hp hv => exact .idle (s := { s with inputs := l }) h hp hv
  | startDetect h hv hp hb => exact .startDetect (s := { s with inputs := l }) h hv hp hb
  | noise h hv hp hb => exact .noise (s := { s with inputs := l }) h hv hp hb
  | lenReject h hv hp hb => exact .lenReject (s := { s with inputs := l }) h hv hp hb
  | lenAccept h hv hp hb => exact .lenAccept (s := { s with inputs := l }) h hv hp hb
  | payNext h hv hp hb => exact .payNext (s := { s with inputs := l }) h hv hp hb
  | payLast h hv hp hb => exact .payLast (s := { s with inputs := l }) h hv hp hb
  | ckMatch h hv hp hb => exact .ckMatch (s := { s with inputs := l }) h hv hp hb
  | ckMismatch h hv hp hb => exact .ckMismatch (s := { s with inputs := l }) h hv hp hb
  | endOk h hv hp hb => exact .endOk (s := { s with inputs := l }) h hv hp hb
  | endBad h hv hp hb => exact .endBad (s := { s with inputs := l }) h hv hp hb

/-- An edge takes one of the listed ways, or it consumes a byte in AwaitPayload with `cnt >= exp` and faults (R79, R15). -/
theorem clockEdge_cases (P : Params) (c : InputCycle) (s : State) :
    (∃ t, EdgeStep P c s t) ∨
      (c.rst = false ∧ c.inValid = true ∧ s.phase = Phase.code .awaitPayload ∧ s.exp.toNat ≤ s.cnt.toNat ∧
        clockEdge P c s = .fault .payloadBound) := by
  cases hr : c.rst with
  | true => exact .inl ⟨_, .reset hr⟩
  | false =>
    by_cases hp : s.phase.toNat < 5
    · cases hv : c.inValid with
      | false => exact .inl ⟨_, .idle hr hp hv⟩
      | true =>
        rcases phaseCode_cases s.phase with e | e | e | e | e | e | e | e
        · by_cases hb : c.inData = P.startMarker
          · exact .inl ⟨_, .startDetect hr hv e hb⟩
          · exact .inl ⟨_, .noise hr hv e hb⟩
        · by_cases hb : c.inData.toNat = 0 ∨ P.cap ≤ c.inData.toNat
          · exact .inl ⟨_, .lenReject hr hv e hb⟩
          · exact .inl ⟨_, .lenAccept hr hv e (by omega)⟩
        · by_cases h1 : s.cnt.toNat < s.exp.toNat
          · by_cases h2 : s.cnt.toNat + 1 < s.exp.toNat
            · exact .inl ⟨_, .payNext hr hv e h2⟩
            · exact .inl ⟨_, .payLast hr hv e (by omega)⟩
          · refine .inr ⟨rfl, rfl, e, by omega, ?_⟩
            have : decode P s.regs (s.eventWordOf c) = .error .payloadBound := by
              refine (decode_eventWord ..).trans ?_
              have h2 : ¬ s.cnt.toNat + 1 < s.exp.toNat := by omega
              have h3 : ¬ s.cnt.toNat + 1 = s.exp.toNat := by omega
              simp [selects, hr, hv, e, h2, h3]
            simp only [clockEdge, this, faultOfDecode]
        · by_cases hb : c.inData = s.chk
          · exact .inl ⟨_, .ckMatch hr hv e hb⟩
          · exact .inl ⟨_, .ckMismatch hr hv e hb⟩
        · by_cases hb : c.inData = P.endMarker
          · exact .inl ⟨_, .endOk hr hv e hb⟩
          · exact .inl ⟨_, .endBad hr hv e hb⟩
        all_goals exact absurd hp (by rw [e]; decide)
    · exact .inl ⟨_, .recover hr (by omega)⟩

/-- The listed ways are all the ways an edge gives a next state. -/
theorem clockEdge_next_iff {P : Params} {c : InputCycle} {s t : State} :
    clockEdge P c s = .next t ↔ EdgeStep P c s t := by
  refine ⟨fun h => ?_, EdgeStep.clockEdge_eq⟩
  rcases clockEdge_cases P c s with ⟨u, hu⟩ | ⟨_, _, _, _, hf⟩
  · have := hu.clockEdge_eq.symm.trans h
    cases this
    exact hu
  · cases hf.symm.trans h

/-! The placing of an event word. -/

/-- The placed inputs and phase make the placed event word. -/
theorem placeEvent_eventWordOf (s : State) (ev : EventWord) :
    (s.placeEvent ev).eventWordOf (inputCycleOf ev) = ev := eventWord_fields ev

@[simp] theorem placeEvent_inputs (s : State) (ev : EventWord) :
    (s.placeEvent ev).inputs = inputCycleOf ev :: s.inputs := rfl

@[simp] theorem placeEvent_phase (s : State) (ev : EventWord) : (s.placeEvent ev).phase = eventPhase ev := rfl

/-! Runs. -/

@[simp] theorem run_nil (P : Params) (s : State) : run P [] s = .next s := rfl

/-- A run whose first edge gives a next state goes on from there. -/
theorem run_cons {P : Params} {c : InputCycle} {cs : List InputCycle} {s t : State} (h : clockEdge P c s = .next t) :
    run P (c :: cs) s = run P cs t := by
  simp only [run, h]

/-- A run that gives a next state did so at its first edge. -/
theorem run_cons_next {P : Params} {c : InputCycle} {cs : List InputCycle} {s u : State}
    (h : run P (c :: cs) s = .next u) : ∃ t, EdgeStep P c s t ∧ run P cs t = .next u := by
  simp only [run] at h
  split at h
  · rename_i t ht
    exact ⟨t, clockEdge_next_iff.mp ht, h⟩
  · cases h
  · cases h

end Sys2Proof.Machine
end

