-- ==== Sys2Proof/Laws/PerInstr.lean ====
section
/-!
SUPPORT. The per-operation family `OwnRow`: the row that opcode_table.json gives an operation accepts that operation's own
event word and builds that operation from it. It says nothing of the rows above it (that none of them takes the word is
part of "decode of encode is the identity").
-/

namespace Sys2Proof.Laws.OwnRow

/-- The place of an operation's row in the operation map, counted from 0 (R78's priority less one). -/
def place : Instr → Nat
  | .reset _ _ _ => 0
  | .recover101 _ _ => 1
  | .recover11x _ _ _ => 2
  | .idle _ _ => 3
  | .startDetect => 4
  | .noise _ => 5
  | .lenReject _ => 6
  | .lenAccept _ => 7
  | .payNext _ => 8
  | .payLast _ => 9
  | .ckMatch _ => 10
  | .ckMismatch _ => 11
  | .endOk => 12
  | .endBad _ => 13

/-- An operation's own row accepts its event word and builds it back. -/
def Statement (i : Instr) : Prop :=
  ∀ (P : Params) (r : Regs), i.wellFormed P = true → i.enabled r = true →
    ∃ row, (opcodeRows P)[place i]? = some row ∧ row.accepts r (encode P i) = true ∧ row.build (encode P i) = i

theorem reset (valid : Bool) (phase : PhaseCode) (b : Byte) : Statement (.reset valid phase b) :=
  fun _ _ _ _ => ⟨_, rfl, by simp only [Row.accepts, encode, row_reset]; rfl, by simp [encode]⟩

theorem recover101 (valid : Bool) (b : Byte) : Statement (.recover101 valid b) :=
  fun _ _ _ _ => ⟨_, rfl, by simp only [Row.accepts, encode, row_recover101]; rfl, by simp [encode]⟩

theorem recover11x (valid low : Bool) (b : Byte) : Statement (.recover11x valid low b) :=
  fun _ _ _ _ => ⟨_, rfl, by simp only [Row.accepts, encode, row_recover11x]; cases low <;> rfl,
    by cases low <;> simp [encode]⟩

theorem idle (phase : PhaseCode) (b : Byte) : Statement (.idle phase b) :=
  fun _ _ _ _ => ⟨_, rfl, by simp only [Row.accepts, encode, row_idle]; rfl, by simp [encode]⟩

theorem startDetect : Statement .startDetect :=
  fun _ _ _ _ => ⟨_, rfl, by simp only [Row.accepts, encode, row_all, startPattern, noCondition]; simp, rfl⟩

theorem noise (b : Byte) : Statement (.noise b) :=
  fun _ _ _ _ => ⟨_, rfl, by simp only [Row.accepts, encode, row_start]; rfl, by simp [encode]⟩

theorem lenReject (b : Byte) : Statement (.lenReject b) :=
  fun _ _ hw _ => ⟨_, rfl, by simp only [Row.accepts, encode, row_length, eventByte_eventWord]; simpa [Instr.wellFormed] using hw,
    by simp [encode]⟩

theorem lenAccept (b : Byte) : Statement (.lenAccept b) :=
  fun _ _ hw _ => ⟨_, rfl, by simp only [Row.accepts, encode, row_length, eventByte_eventWord]; simpa [Instr.wellFormed] using hw,
    by simp [encode]⟩

theorem payNext (b : Byte) : Statement (.payNext b) :=
  fun _ _ _ he => ⟨_, rfl, by simp only [Row.accepts, encode, row_payload]; simpa [Instr.enabled] using he, by simp [encode]⟩

theorem payLast (b : Byte) : Statement (.payLast b) :=
  fun _ _ _ he => ⟨_, rfl, by simp only [Row.accepts, encode, row_payload]; simpa [Instr.enabled] using he, by simp [encode]⟩

theorem ckMatch (b : Byte) : Statement (.ckMatch b) :=
  fun _ _ _ he => ⟨_, rfl, by simp only [Row.accepts, encode, row_checksum, eventByte_eventWord]; simpa [Instr.enabled] using he,
    by simp [encode]⟩

theorem ckMismatch (b : Byte) : Statement (.ckMismatch b) :=
  fun _ _ _ he => ⟨_, rfl, by simp only [Row.accepts, encode, row_checksum, eventByte_eventWord]; simpa [Instr.enabled] using he,
    by simp [encode]⟩

theorem endOk : Statement .endOk :=
  fun _ _ _ _ => ⟨_, rfl, by simp only [Row.accepts, encode, row_all, endPattern, noCondition]; simp, rfl⟩

theorem endBad (b : Byte) : Statement (.endBad b) :=
  fun _ _ _ _ => ⟨_, rfl, by simp only [Row.accepts, encode, row_end]; rfl, by simp [encode]⟩

end Sys2Proof.Laws.OwnRow
end

