-- ==== Sys2Proof/Tests/Slice0.lean ====
section
/-!
SUPPORT. Tests. The expected values come from the spec: event words written out from the fields of 30_encoding.md R76 and the
`encoding` column of opcode_table.json, and the vectors V1 to V33 of 95_test_vectors.md. The witnesses at the end show, for
each obligation with hypotheses, one concrete state and operands that meet them all.
-/

namespace Sys2Proof.Tests

open Sys2Proof.Machine

/-! WellFormed refuses an ill-formed term at each of its checks. -/

theorem test_wellFormed_idle_refuses_illegal_phase : Instr.wellFormed Config.hw (.idle 0b101 0x00) = false := by decide
theorem test_wellFormed_noise_refuses_start_marker : Instr.wellFormed Config.hw (.noise 0x02) = false := by decide
theorem test_wellFormed_lenReject_refuses_legal_length : Instr.wellFormed Config.hw (.lenReject 0xFF) = false := by decide
theorem test_wellFormed_lenAccept_refuses_zero : Instr.wellFormed Config.hw (.lenAccept 0x00) = false := by decide
/-- 95_test_vectors.md B2: with `CAP = 16`, byte `0x10` is rejected and `0x0F` accepted. -/
theorem test_wellFormed_lenAccept_refuses_cap :
    Instr.wellFormed { Config.hw with cap := 16 } (.lenAccept 0x10) = false ∧
    Instr.wellFormed { Config.hw with cap := 16 } (.lenAccept 0x0F) = true := by decide
theorem test_wellFormed_endBad_refuses_end_marker : Instr.wellFormed Config.hw (.endBad 0x03) = false := by decide
theorem test_enabled_payNext_refuses_last_byte : Instr.enabled ⟨1, 2, 0x41⟩ (.payNext 0x41) = false := by decide
theorem test_enabled_payLast_refuses_wrap : Instr.enabled ⟨255, 0, 0x00⟩ (.payLast 0x41) = false := by decide
theorem test_enabled_ckMatch_refuses_other_byte : Instr.enabled ⟨4, 4, 0x00⟩ (.ckMatch 0x01) = false := by decide
theorem test_enabled_ckMismatch_refuses_checksum : Instr.enabled ⟨4, 4, 0x00⟩ (.ckMismatch 0x00) = false := by decide

/-! Each constructor's event word, written out bit by bit: `rst`, `in_valid`, `phase`, `in_data` (R76). -/

theorem test_decode_reset :
    decode Config.hw ⟨2, 2, 0x03⟩ 0b1_1_100_00000011 = .ok (.reset true 0b100 0x03) := by decide
theorem test_decode_recover101 :
    decode Config.hw ⟨0, 0, 0x00⟩ 0b0_1_101_00000010 = .ok (.recover101 true 0x02) := by decide
theorem test_decode_recover110 :
    decode Config.hw ⟨0, 0, 0x00⟩ 0b0_1_110_00000010 = .ok (.recover11x true false 0x02) := by decide
theorem test_decode_recover111 :
    decode Config.hw ⟨0, 0, 0x00⟩ 0b0_0_111_00000010 = .ok (.recover11x false true 0x02) := by decide
theorem test_decode_idle :
    decode Config.hw ⟨1, 3, 0x10⟩ 0b0_0_010_01010101 = .ok (.idle 0b010 0x55) := by decide
theorem test_decode_startDetect :
    decode Config.hw ⟨4, 4, 0x00⟩ 0b0_1_000_00000010 = .ok .startDetect := by decide
theorem test_decode_noise :
    decode Config.hw ⟨0, 0, 0x00⟩ 0b0_1_000_11111111 = .ok (.noise 0xFF) := by decide
theorem test_decode_lenReject :
    decode Config.hw ⟨0, 0, 0x00⟩ 0b0_1_001_00000000 = .ok (.lenReject 0x00) := by decide
theorem test_decode_lenAccept_min :
    decode Config.hw ⟨0, 0, 0x00⟩ 0b0_1_001_00000001 = .ok (.lenAccept 0x01) := by decide
theorem test_decode_lenAccept_max :
    decode Config.hw ⟨0, 0, 0x00⟩ 0b0_1_001_11111111 = .ok (.lenAccept 0xFF) := by decide
theorem test_decode_payNext :
    decode Config.hw ⟨0, 2, 0x00⟩ 0b0_1_010_01000001 = .ok (.payNext 0x41) := by decide
theorem test_decode_payLast :
    decode Config.hw ⟨254, 255, 0x01⟩ 0b0_1_010_11111110 = .ok (.payLast 0xFE) := by decide
theorem test_decode_ckMatch :
    decode Config.hw ⟨2, 2, 0x03⟩ 0b0_1_011_00000011 = .ok (.ckMatch 0x03) := by decide
theorem test_decode_ckMismatch :
    decode Config.hw ⟨1, 1, 0x7F⟩ 0b0_1_011_11111111 = .ok (.ckMismatch 0xFF) := by decide
theorem test_decode_endOk :
    decode Config.hw ⟨2, 2, 0x03⟩ 0b0_1_100_00000011 = .ok .endOk := by decide
theorem test_decode_endBad :
    decode Config.hw ⟨1, 1, 0x05⟩ 0b0_1_100_00000010 = .ok (.endBad 0x02) := by decide
/-- V18: an AwaitPayload word with `cnt = exp` matches no row. -/
theorem test_decode_payloadBound : decode Config.hw ⟨2, 2, 0x00⟩ 0b0_1_010_01000001 = .error .payloadBound := by decide
/-- R84: the event word of START_DETECT is `0x0802`. -/
theorem test_encode_startDetect : encode Config.hw .startDetect = 0x0802 := by decide
theorem test_encode_endOk : encode Config.hw .endOk = 0x0C03 := by decide
theorem test_decodeTableWord_resolves_payload_word : decodeTableWord 16 0x0A41 = some (.payNext 0x41) := by decide
theorem test_decodeTableWord_resolves_checksum_words :
    decodeTableWord 16 0x0B00 = some (.ckMatch 0x00) ∧ decodeTableWord 16 0x0B01 = some (.ckMismatch 0x01) := by decide

/-! One step on a small state: phase, `exp`, `cnt`, `chk`, `ok`, `err` after it. -/

/-- A state with given registers and payload buffer, one input cycle to come, and all else as after reset. -/
def ready (phase : Phase) (exp cnt chk : Byte) (c : InputCycle) (buf : Memory := []) : State :=
  { State.reset with phase := phase.code, exp := exp, cnt := cnt, chk := chk, buf := buf, inputs := [c] }

/-- The registers a step leads to. -/
def regsAfter (s : State) : Option (PhaseCode × Byte × Byte × Byte × Bool × Bool) :=
  match step s with
  | .next t => some (t.phase, t.exp, t.cnt, t.chk, t.ok, t.err)
  | .fault _ => none
  | .refused _ => none

/-- The trace a step leads to. -/
def traceAfter (s : State) : Option (List Notice) :=
  match step s with
  | .next t => some t.trace
  | .fault _ => none
  | .refused _ => none

/-- The written buffer entries a step leads to. -/
def bufAfter (s : State) : Option Memory :=
  match step s with
  | .next t => some t.buf
  | .fault _ => none
  | .refused _ => none

/-- V2. -/
theorem test_step_startDetect_after_success :
    regsAfter (ready .awaitStart 4 4 0x00 (consuming 0x02)) = some (0b001, 0, 0, 0x00, false, false) := by decide
/-- V6. -/
theorem test_step_noise_holds_registers :
    regsAfter (ready .awaitStart 2 2 0x03 (consuming 0x01)) = some (0b000, 2, 2, 0x03, false, false) := by decide
/-- V3. -/
theorem test_step_noise_end_marker :
    regsAfter (ready .awaitStart 0 0 0x00 (consuming 0x03)) = some (0b000, 0, 0, 0x00, false, false) := by decide
/-- V7. -/
theorem test_step_lenReject_zero :
    regsAfter (ready .awaitLength 0 0 0x00 (consuming 0x00)) = some (0b000, 0, 0, 0x00, false, true) := by decide
/-- V11. -/
theorem test_step_lenAccept_max :
    regsAfter (ready .awaitLength 0 0 0x00 (consuming 0xFF)) = some (0b010, 255, 0, 0x00, false, false) := by decide
/-- V9. -/
theorem test_step_lenAccept_start_marker :
    regsAfter (ready .awaitLength 0 0 0x00 (consuming 0x02)) = some (0b010, 2, 0, 0x00, false, false) := by decide
/-- V17. -/
theorem test_step_payNext_end_marker :
    regsAfter (ready .awaitPayload 3 1 0x02 (consuming 0x03)) = some (0b010, 3, 2, 0x01, false, false) := by decide
/-- V14. -/
theorem test_step_payLast_folds_to_zero :
    regsAfter (ready .awaitPayload 2 1 0x41 (consuming 0x41)) = some (0b011, 2, 2, 0x00, false, false) := by decide
/-- V15. -/
theorem test_step_payLast_largest :
    regsAfter (ready .awaitPayload 255 254 0x01 (consuming 0xFE)) = some (0b011, 255, 255, 0xFF, false, false) := by decide
/-- V21. -/
theorem test_step_ckMatch_end_marker :
    regsAfter (ready .awaitChecksum 2 2 0x03 (consuming 0x03)) = some (0b100, 2, 2, 0x03, false, false) := by decide
/-- V22. -/
theorem test_step_ckMismatch :
    regsAfter (ready .awaitChecksum 1 1 0x7F (consuming 0xFF)) = some (0b000, 0, 0, 0x00, false, true) := by decide
/-- V24. -/
theorem test_step_endOk :
    regsAfter (ready .awaitEnd 2 2 0x03 (consuming 0x03)) = some (0b000, 2, 2, 0x03, true, false) := by decide
/-- V25. -/
theorem test_step_endBad_start_marker :
    regsAfter (ready .awaitEnd 1 1 0x05 (consuming 0x02)) = some (0b000, 1, 1, 0x05, false, true) := by decide
/-- V13. -/
theorem test_step_payNext_writes_buffer : bufAfter (ready .awaitPayload 2 0 0x00 (consuming 0x41)) = some [(0, 0x41)] := by
  decide
/-- V16, over an older payload: the entry written replaces its old byte. -/
theorem test_step_payNext_overwrites :
    bufAfter (ready .awaitPayload 3 1 0x02 (consuming 0x03) [(0, 0x02), (1, 0x55), (2, 0x66)]) =
      some [(0, 0x02), (1, 0x03), (2, 0x66)] := by decide
/-- V24: the trace records the payload. -/
theorem test_step_endOk_trace :
    traceAfter (ready .awaitEnd 2 2 0x03 (consuming 0x03) [(0, 0x01), (1, 0x02)]) =
      some [.success 1 2 [0x01, 0x02]] := by decide
/-- V25: the trace records the kind. -/
theorem test_step_endBad_trace : traceAfter (ready .awaitEnd 1 1 0x05 (consuming 0x02)) = some [.error 1 .eEnd] := by decide
/-- V18. -/
theorem test_step_payloadBound : step (ready .awaitPayload 2 2 0x00 (consuming 0x41)) = .fault .payloadBound := rfl
/-- V28. -/
theorem test_step_idle :
    regsAfter (ready .awaitPayload 3 1 0x10 ⟨false, false, 0x55⟩) = some (0b010, 3, 1, 0x10, false, false) := by decide
/-- V29: reset wins over the END_MARKER presented with it. -/
theorem test_step_reset :
    regsAfter (ready .awaitEnd 2 2 0x03 ⟨true, true, 0x03⟩) = some (0b000, 0, 0, 0x00, false, false) := by decide
/-- V30: RECOVER drops the byte. -/
theorem test_step_recover110 :
    regsAfter { ready .awaitStart 7 7 0x07 (consuming 0x02) with phase := 0b110 } =
      some (0b000, 0, 0, 0x00, false, false) := by decide
theorem test_step_recover101 :
    regsAfter { ready .awaitStart 7 7 0x07 (consuming 0x02) with phase := 0b101 } =
      some (0b000, 0, 0, 0x00, false, false) := by decide
/-- V32: the pulse lasts one cycle. -/
theorem test_step_idle_ends_pulse :
    regsAfter { ready .awaitStart 1 1 0x44 ⟨false, false, 0x00⟩ with okR := true } =
      some (0b000, 1, 1, 0x44, false, false) := by decide
/-- V33: the read port after program C1. -/
theorem test_readPort :
    (ready .awaitStart 1 1 0x7F (consuming 0x00) [(0, 0x7F), (1, 0x20)]).rdData 0 = 0x7F ∧
    (ready .awaitStart 1 1 0x7F (consuming 0x00) [(0, 0x7F), (1, 0x20)]).rdData 1 = 0x20 := by decide
/-- R83, R84: `frame 0x01, 0x02`, and the requirement that fails for an empty payload. -/
theorem test_frame :
    frame Config.hw [0x01, 0x02] = some [0x02, 0x02, 0x01, 0x02, 0x03, 0x03] ∧ frame Config.hw [] = none := by decide
/-- 95_test_vectors.md C3: `partial 4; 0x05`. -/
theorem test_partialFrame : partialFrame Config.hw 4 [0x05] = some [0x02, 0x01, 0x05, 0x05] := by decide
/-- 95_test_vectors.md C3: `frame_badck 0x55; 0x01, 0x02, 0x04`; and the requirement that fails for the right checksum. -/
theorem test_frameBadck :
    frameBadck Config.hw 0x55 [0x01, 0x02, 0x04] = some [0x02, 0x03, 0x01, 0x02, 0x04, 0x55, 0x03] ∧
    frameBadck Config.hw 0x07 [0x01, 0x02, 0x04] = none := by decide
/-- R200: the ghost codes. -/
theorem test_error_codes : ErrorKind.code .eLen = 1 ∧ ErrorKind.code .eChk = 2 ∧ ErrorKind.code .eEnd = 3 := by decide
/-- R75: the phase codes, and the illegal ones. -/
theorem test_phase_codes :
    Phase.ofCode 0b000 = some .awaitStart ∧ Phase.ofCode 0b001 = some .awaitLength ∧
    Phase.ofCode 0b010 = some .awaitPayload ∧ Phase.ofCode 0b011 = some .awaitChecksum ∧
    Phase.ofCode 0b100 = some .awaitEnd ∧ Phase.ofCode 0b101 = none ∧ Phase.ofCode 0b110 = none ∧
    Phase.ofCode 0b111 = none := by decide
/-- The host's placing of a word runs it as the first operation after reset. -/
theorem test_placed_words_run :
    regsAfter (State.reset.withFetchWord 16 0x0802) = some (0b001, 0, 0, 0x00, false, false) ∧
    regsAfter (State.reset.withFetchWord 16 0x0A41) = some (0b010, 2, 1, 0x41, false, false) ∧
    regsAfter (State.reset.withFetchWord 16 0x0B01) = some (0b000, 0, 0, 0x00, false, true) :=
  ⟨by decide, by decide, by decide⟩

/-! Witnesses of the obligations' hypotheses. -/

/-- In the middle of a payload of 3 bytes, the first received. -/
def midPayload : State := ready .awaitPayload 3 1 0x10 (consuming 0x20) [(0, 0x10)]

/-- With the last payload byte to come. -/
def lastPayload : State := ready .awaitPayload 2 1 0x10 (consuming 0x20) [(0, 0x10)]

theorem midPayload_inv : Inv Config.hw midPayload where
  phase_legal := by decide
  counts := by decide
  in_length := fun h => absurd h (by decide)
  in_payload := fun _ => by decide
  in_check := fun h => absurd h (by decide)
  in_start := fun h => absurd h (by decide)
  one_pulse := by decide
  buf_wf := by decide
  buf_within := by
    intro x hx
    rcases List.mem_singleton.mp hx with rfl
    decide

theorem lastPayload_inv : Inv Config.hw lastPayload where
  phase_legal := by decide
  counts := by decide
  in_length := fun h => absurd h (by decide)
  in_payload := fun _ => by decide
  in_check := fun h => absurd h (by decide)
  in_start := fun h => absurd h (by decide)
  one_pulse := by decide
  buf_wf := by decide
  buf_within := by
    intro x hx
    rcases List.mem_singleton.mp hx with rfl
    decide

theorem awaitLength_inv : Inv Config.hw (ready .awaitLength 0 0 0x00 (consuming 0x00)) where
  phase_legal := by decide
  counts := by decide
  in_length := fun _ => by decide
  in_payload := fun h => absurd h (by decide)
  in_check := fun h => absurd h (by decide)
  in_start := fun h => absurd h (by decide)
  one_pulse := by decide
  buf_wf := by decide
  buf_within := fun _ hx => absurd hx List.not_mem_nil

theorem witness_RecoverLeavesIllegalPhase :
    5 ≤ ({ State.reset with phase := 0b101 } : State).phase.toNat ∧
    5 ≤ ({ State.reset with phase := 0b111 } : State).phase.toNat := by decide
theorem witness_IdleHoldsAllState :
    State.reset.phase = Phase.code .awaitStart ∧ midPayload.phase = Phase.code .awaitPayload ∧
    (ready .awaitEnd 1 1 0x05 (consuming 0x03)).phase = Phase.code .awaitEnd := by decide
theorem witness_StartDetectOpensAttempt : State.reset.phase = 0b000 := by decide
theorem witness_NoiseIsAbsorbed :
    State.reset.phase = 0b000 ∧ (0x01 : Byte) ≠ 0x02 ∧ (0x03 : Byte) ≠ 0x02 := by decide
theorem witness_LenAcceptArmsPayload :
    (ready .awaitLength 0 0 0x00 (consuming 0xFF)).phase = 0b001 ∧ 0 < (0x01 : Byte).toNat ∧
    (0xFF : Byte).toNat < Config.hw.cap ∧ 0 < (0xFF : Byte).toNat ∧ (0x01 : Byte).toNat < Config.hw.cap := by decide
theorem witness_LenRejectSignalsError :
    Inv Config.hw (ready .awaitLength 0 0 0x00 (consuming 0x00)) ∧
    (ready .awaitLength 0 0 0x00 (consuming 0x00)).phase = 0b001 ∧
    ((0x00 : Byte).toNat = 0 ∨ Config.hw.cap ≤ (0x00 : Byte).toNat) ∧
    ((0x10 : Byte).toNat = 0 ∨ (⟨0x02, 0x03, 16⟩ : Params).cap ≤ (0x10 : Byte).toNat) :=
  ⟨awaitLength_inv, by decide⟩
theorem witness_PayNextStoresAndFolds :
    Inv Config.hw midPayload ∧ midPayload.phase = 0b010 ∧ midPayload.cnt.toNat + 1 < midPayload.exp.toNat :=
  ⟨midPayload_inv, by decide⟩
theorem witness_PayLastStoresAndFolds :
    Inv Config.hw lastPayload ∧ lastPayload.phase = 0b010 ∧ lastPayload.cnt.toNat + 1 = lastPayload.exp.toNat :=
  ⟨lastPayload_inv, by decide⟩
theorem witness_PayloadBoundFaultsExactlyThere :
    Inv Config.hw midPayload ∧
    clockEdge Config.hw (consuming 0x41) (ready .awaitPayload 2 2 0x00 (consuming 0x41)) = .fault .payloadBound ∧
    exec (.payNext 0x41) (ready .awaitPayload 2 2 0x00 (consuming 0x41)) = .fault .payloadBound ∧
    exec (.payLast 0x41) (ready .awaitPayload 2 2 0x00 (consuming 0x41)) = .fault .payloadBound :=
  ⟨midPayload_inv, rfl, rfl, rfl⟩
theorem witness_CkMatchGoesToAwaitEnd :
    (ready .awaitChecksum 2 2 0x03 (consuming 0x03)).phase = 0b011 ∧
    (0x03 : Byte) = (ready .awaitChecksum 2 2 0x03 (consuming 0x03)).chk := by decide
theorem witness_CkMismatchSignalsError :
    (ready .awaitChecksum 2 2 0x03 (consuming 0x01)).phase = 0b011 ∧
    (0x01 : Byte) ≠ (ready .awaitChecksum 2 2 0x03 (consuming 0x01)).chk := by decide
theorem witness_EndOkSignalsSuccess : (ready .awaitEnd 2 2 0x03 (consuming 0x03)).phase = 0b100 := by decide
theorem witness_EndBadSignalsError :
    (ready .awaitEnd 1 1 0x05 (consuming 0x02)).phase = 0b100 ∧ (0x02 : Byte) ≠ 0x03 ∧ (0x04 : Byte) ≠ 0x03 := by decide
theorem witness_DecodeOfEncodeIsIdentity :
    Instr.wellFormed Config.hw (.payNext 0x20) = true ∧ Instr.enabled midPayload.regs (.payNext 0x20) = true := by decide
theorem witness_EncodeOfDecodeIsIdentity :
    decode Config.hw midPayload.regs (midPayload.eventWordOf (consuming 0x20)) = .ok (.payNext 0x20) := by decide
theorem witness_StepRunsDecodedOperation :
    midPayload.inputs = [consuming 0x20] ∧
    selectedAt Config.hw (consuming 0x20) midPayload (.payNext 0x20) :=
  ⟨by decide, by show decode _ _ _ = _; decide⟩
theorem witness_StepWithoutInputsEndsRun : State.reset.inputs = [] ∧ midPayload.inputs ≠ [] := by decide
theorem witness_PlacedWordIsRunNext : decodeTableWord 16 0x0901 = some (.lenAccept 0x01) := by decide
theorem witness_legal : Config.hw.legal ∧ (⟨0x02, 0x03, 2⟩ : Params).legal := by decide
theorem witness_InvariantHoldsAtReset :
    Config.hw.legal ∧ ({ State.reset with phase := 0b111, exp := 0x55 } : State).buf = [] ∧
    (⟨true, true, 0x02⟩ : InputCycle).rst = true := by decide
theorem witness_StepKeepsInvariant : Inv Config.hw midPayload ∧ ∃ t, step midPayload = .next t := ⟨midPayload_inv, _, rfl⟩
/-- Also of LastEntryIsNeverWritten, RunsFromInvariantStatesNeverStop and CountersFitTheirWidth. -/
theorem witness_InvariantHoldsInReachableStates :
    Config.hw.legal ∧ Inv Config.hw midPayload ∧
    ∃ t, run Config.hw [consuming 0x20, consuming 0x30, consuming 0x00] midPayload = .next t :=
  ⟨by decide, midPayload_inv, _, rfl⟩
theorem witness_StepKeepsBufferCanonical : Memory.wf midPayload.buf = true ∧ ∃ t, step midPayload = .next t :=
  ⟨by decide, _, rfl⟩
/-- Also of RegisterWriters (each of its four cases: hold, clear, load, count). -/
theorem witness_PulsesMatchTrace :
    (∃ t, clockEdge Config.hw (consuming 0x03) (ready .awaitEnd 2 2 0x03 (consuming 0x03)) = .next t ∧ t.ok = true) ∧
    (∃ t, clockEdge Config.hw (consuming 0x00) (ready .awaitLength 0 0 0x00 (consuming 0x00)) = .next t ∧ t.err = true) ∧
    (∃ t, clockEdge Config.hw (consuming 0x01) (ready .awaitLength 0 0 0x00 (consuming 0x01)) = .next t ∧ t.exp = 0x01) ∧
    (∃ t, clockEdge Config.hw (consuming 0x20) midPayload = .next t ∧ t.cnt = 0x02) :=
  ⟨⟨_, rfl, rfl⟩, ⟨_, rfl, rfl⟩, ⟨_, rfl, rfl⟩, ⟨_, rfl, by decide⟩⟩
theorem witness_SignallingEdgeResynchronises :
    (∃ t, clockEdge Config.hw (consuming 0x02) (ready .awaitEnd 1 1 0x05 (consuming 0x02)) = .next t ∧
      (t.ok = true ∨ t.err = true)) ∧
    (∃ t, clockEdge Config.hw (consuming 0x01) (ready .awaitChecksum 2 2 0x03 (consuming 0x01)) = .next t ∧
      (t.ok = true ∨ t.err = true)) :=
  ⟨⟨_, rfl, .inr rfl⟩, ⟨_, rfl, .inr rfl⟩⟩
theorem witness_PulsesAreNeverAdjacent :
    ∃ t u, clockEdge Config.hw (consuming 0x03) (ready .awaitEnd 2 2 0x03 (consuming 0x03)) = .next t ∧
      clockEdge Config.hw (consuming 0x02) t = .next u ∧ (t.ok = true ∨ t.err = true) := ⟨_, _, rfl, rfl, .inl rfl⟩
theorem witness_OnlyPayloadBytesWriteBuffer :
    ∃ t, clockEdge Config.hw (consuming 0x20) (ready .awaitPayload 2 0 0x00 (consuming 0x20) [(0, 0x10)]) = .next t ∧
      t.bufRead 0 ≠ (ready .awaitPayload 2 0 0x00 (consuming 0x20) [(0, 0x10)]).bufRead 0 := ⟨_, rfl, by decide⟩
theorem witness_OnlyStartMarkerInAwaitStartOpensAttempt :
    (∃ t, clockEdge Config.hw (consuming 0x02) State.reset = .next t ∧ t.phase = 0b001) ∧
    (∃ t, clockEdge Config.hw ⟨false, false, 0x02⟩ (ready .awaitLength 0 0 0x00 (consuming 0x00)) = .next t ∧
      t.phase = 0b001) := ⟨⟨_, rfl, rfl⟩, ⟨_, rfl, rfl⟩⟩
theorem witness_NoLookaheadNoHistory :
    sameControl midPayload { midPayload with buf := [(0, 0x55)], trace := [.error 0 .eChk], okR := true } ∧
    ∃ t, clockEdge Config.hw (consuming 0x20) midPayload = .next t := ⟨⟨rfl, rfl, rfl, rfl⟩, _, rfl⟩
theorem witness_ResetDiscardsAttempt : (⟨true, false, 0x00⟩ : InputCycle).rst = true := rfl
theorem witness_IdleCyclesKeepAttemptPending : midPayload.legalPhase ∧ [(0x55 : Byte), 0x02] ≠ [] := by decide
/-- The first clause with no step and with all the listed ones, and a frame split with an empty chunk and none at all. -/
theorem witness_ChunkBoundariesDoNotMatter :
    0 ≤ State.reset.inputs.length ∧ 1 ≤ midPayload.inputs.length ∧ State.reset.phase = 0b000 ∧ State.reset.inputs = [] ∧
    legalLength Config.hw [0x7F] ∧ [[(0x02 : Byte)], [], [0x01, 0x7F, 0x7F], [0x03]].flatten = frameBytes Config.hw [0x7F] ∧
    [frameBytes Config.hw [0x7F]].flatten = frameBytes Config.hw [0x7F] := by decide
theorem witness_IdleCyclesDoNotChangeEvents :
    midPayload.legalPhase ∧ ∃ t, run Config.hw [consuming 0x20, ⟨false, false, 0x02⟩, consuming 0x30] midPayload = .next t :=
  ⟨by decide, _, rfl⟩
/-- The shortest frame; also of NoiseBeforeFrameIsAbsorbed and BackToBackFramesSucceedInOrder. -/
theorem witness_WellFormedFrameSucceeds :
    Config.hw.legal ∧ State.reset.phase = 0b000 ∧ legalLength Config.hw [0x7F] ∧
    Config.hw.startMarker ∉ [(0xFF : Byte), 0x03, 0x00] ∧ ∀ ps ∈ [[(0x10 : Byte), 0x20], [0x7F]], legalLength Config.hw ps := by
  decide
/-- The longest frame. -/
theorem witness_longest_frame : legalLength Config.hw (List.replicate 255 0x01) ∧
    ¬ legalLength Config.hw (List.replicate 256 0x01) := by
  simp only [legalLength, List.length_replicate]
  decide
theorem witness_WrongChecksumGivesOneError :
    State.reset.phase = 0b000 ∧ legalLength Config.hw [0x01, 0x02, 0x04] ∧ (0x55 : Byte) ≠ xorFold [0x01, 0x02, 0x04] := by
  decide
theorem witness_BadTerminatorGivesOneError :
    Config.hw.legal ∧ State.reset.phase = 0b000 ∧ legalLength Config.hw [0x05] ∧ (0x02 : Byte) ≠ Config.hw.endMarker := by
  decide
theorem witness_SuccessOnlyAfterWellFormedFrame :
    Config.hw.legal ∧ State.reset.phase = 0b000 ∧ [(0xFF : Byte), 0x02, 0x01, 0x7F, 0x7F, 0x03] ≠ [] ∧
    ∃ t, runBytes Config.hw [0xFF, 0x02, 0x01, 0x7F, 0x7F, 0x03] State.reset = .next t ∧ t.ok = true :=
  ⟨by decide, by decide, by decide, _, rfl, rfl⟩
theorem witness_BufferIsStableAfterSuccess :
    State.reset.phase = 0b000 ∧ (∃ t, run Config.hw [consuming 0x02, consuming 0x01] State.reset = .next t) ∧
    (consumedBytes [consuming 0x02, consuming 0x01]).length < 3 + 0 := ⟨by decide, ⟨_, rfl⟩, by decide⟩
theorem witness_LengthOutputAfterSuccess :
    State.reset.phase = 0b000 ∧ (∃ t, clockEdge Config.hw (consuming 0x02) State.reset = .next t) ∧
    (∃ t, clockEdge Config.hw (consuming 0x03) State.reset = .next t) := ⟨by decide, ⟨_, rfl⟩, ⟨_, rfl⟩⟩
theorem witness_HeldByteIsConsumedTwice : State.reset.phase = 0b000 := by decide
theorem witness_InstancesAreIndependent :
    ∃ sys', instanceStep (0 : Fin 2) #v[midPayload, State.reset] = .next sys' := ⟨_, rfl⟩

end Sys2Proof.Tests
end

section
/-!
The one fault of the model and the width of its counters (00_scope.md R10, R15): where `exec` and an edge raise
`PayloadBound`, that the invariant of R27 rules it out, and that R10's width holds every length below `CAP`.
-/

namespace Sys2Proof.Machine

/-! Where the fault is raised. -/

/-- An operation answers a next state, or it accepts a payload byte with `cnt >= exp` and faults. -/
theorem exec_cases (i : Instr) (s : State) :
    (∃ t, exec i s = .next t) ∨
      ((∃ b, i = .payNext b ∨ i = .payLast b) ∧ ¬ s.cnt.toNat < s.exp.toNat ∧ exec i s = .fault .payloadBound) := by
  cases i with
  | payNext b =>
    by_cases h : s.cnt.toNat < s.exp.toNat
    · exact .inl ⟨_, exec_payNext b h⟩
    · exact .inr ⟨⟨b, .inl rfl⟩, h, exec_payNext_fault b h⟩
  | payLast b =>
    by_cases h : s.cnt.toNat < s.exp.toNat
    · exact .inl ⟨_, exec_payLast b h⟩
    · exact .inr ⟨⟨b, .inr rfl⟩, h, exec_payLast_fault b h⟩
  | _ => exact .inl ⟨_, rfl⟩

/-- `exec` faults exactly for the two operations that accept a payload byte, when `cnt < exp` fails (R140, R141). -/
theorem exec_fault_iff {i : Instr} {s : State} {f : Fault} :
    exec i s = .fault f ↔
      f = .payloadBound ∧ ¬ s.cnt.toNat < s.exp.toNat ∧ ∃ b, i = .payNext b ∨ i = .payLast b := by
  constructor
  · intro h
    rcases exec_cases i s with ⟨t, ht⟩ | ⟨hi, hc, hf⟩
    · cases ht.symm.trans h
    · cases hf.symm.trans h
      exact ⟨rfl, hc, hi⟩
  · rintro ⟨rfl, hc, b, rfl | rfl⟩
    · exact exec_payNext_fault b hc
    · exact exec_payLast_fault b hc

/-- An edge that consumes a byte in AwaitPayload and gives a next state had room for the byte (R100). -/
theorem EdgeStep.cnt_lt_exp {P : Params} {c : InputCycle} {s t : State} (h : EdgeStep P c s t)
    (hrst : c.rst = false) (hvalid : c.inValid = true) (hphase : s.phase = Phase.code .awaitPayload) :
    s.cnt.toNat < s.exp.toNat := by
  cases h with
  | payNext _ _ _ hb => omega
  | payLast _ _ _ hb => omega
  | reset h => cases hrst.symm.trans h
  | recover _ hp => exact absurd hp (by rw [hphase]; decide)
  | idle _ _ hv => cases hvalid.symm.trans hv
  | startDetect _ _ hp | noise _ _ hp | lenReject _ _ hp | lenAccept _ _ hp | ckMatch _ _ hp | ckMismatch _ _ hp
  | endOk _ _ hp | endBad _ _ hp => exact absurd (hphase.symm.trans hp) (by decide)

/-- An edge faults exactly when it consumes a byte in AwaitPayload and `cnt < exp` fails (R15, R78, R100). -/
theorem clockEdge_fault_iff {P : Params} {c : InputCycle} {s : State} {f : Fault} :
    clockEdge P c s = .fault f ↔
      f = .payloadBound ∧ c.rst = false ∧ c.inValid = true ∧ s.phase = Phase.code .awaitPayload ∧
        ¬ s.cnt.toNat < s.exp.toNat := by
  rcases clockEdge_cases P c s with ⟨t, ht⟩ | ⟨hrst, hvalid, hphase, hc, hf⟩
  · constructor
    · intro h
      cases ht.clockEdge_eq.symm.trans h
    · rintro ⟨-, hrst, hvalid, hphase, hc⟩
      exact absurd (ht.cnt_lt_exp hrst hvalid hphase) hc
  · constructor
    · intro h
      cases hf.symm.trans h
      exact ⟨rfl, hrst, hvalid, hphase, hc.not_gt⟩
    · rintro ⟨rfl, -⟩
      exact hf

/-- In a state with the invariant of R27 no edge faults: (I-c) gives AwaitPayload its precondition `cnt < exp`. -/
theorem Inv.clockEdge_ne_fault {P : Params} {s : State} (hinv : Inv P s) (c : InputCycle) (f : Fault) :
    clockEdge P c s ≠ .fault f := by
  intro h
  obtain ⟨-, -, -, hphase, hc⟩ := clockEdge_fault_iff.mp h
  obtain ⟨-, hlt, -⟩ := hinv.in_payload hphase
  exact hc hlt

/-- Settles O10: from where `exec` and an edge fault, and from the invariant's `cnt < exp` in AwaitPayload. -/
theorem payloadBoundFaultsExactlyThere : Obligations.PayloadBoundFaultsExactlyThere :=
  fun _ _ => ⟨fun _ _ => clockEdge_fault_iff, fun _ _ => exec_fault_iff, Inv.clockEdge_ne_fault⟩

/-! The width of the counters. -/

/-- This hardware's counters are 8 bits wide, for `256 = 2^8` (R10). -/
theorem counterWidth_hw : Config.hw.counterWidth = 8 := by
  have hclog : Nat.clog 2 Config.hw.cap = 8 := Nat.clog_pow 2 8 one_lt_two
  rw [Params.counterWidth, hclog]
  rfl

/-- A counter of R10's width holds every number below `CAP`. -/
theorem cap_le_two_pow_counterWidth (P : Params) : P.cap ≤ 2 ^ P.counterWidth :=
  calc P.cap ≤ 2 ^ Nat.clog 2 P.cap := Nat.le_pow_clog one_lt_two _
    _ ≤ 2 ^ P.counterWidth := Nat.pow_le_pow_right two_pos (le_max_right ..)

/-- Settles O34: by (I-a), `cnt <= exp < CAP`, and `CAP` is at most 2 to the power of the width. -/
theorem countersFitTheirWidth : Obligations.CountersFitTheirWidth := by
  refine ⟨counterWidth_hw, fun P s _ hinv => ?_⟩
  obtain ⟨hcnt, hexp⟩ := hinv.counts
  have hwidth := cap_le_two_pow_counterWidth P
  exact ⟨by omega, by omega⟩

end Sys2Proof.Machine
end

section
/-!
The invariant of R27 (10_state.md section 6): read phase by phase, that reset establishes it, that every edge keeps it, and
what follows for steps and runs; and which edges write `exp`, `cnt` and `chk` (R22, R23, R24).
-/

namespace Sys2Proof.Machine

/-! Phases. -/

/-- A phase's code names that phase alone. -/
theorem phase_code_injective {p q : Phase} (h : p.code = q.code) : p = q := by
  simpa using congrArg Phase.ofCode h

/-- A legal phase register holds the code of a phase (R75). -/
theorem exists_code_of_lt_five {c : PhaseCode} (h : c.toNat < 5) : ∃ p : Phase, c = p.code := by
  cases hp : Phase.ofCode c with
  | none => exact absurd ((ofCode_eq_none c).mp hp) (by omega)
  | some p => exact ⟨p, (ofCode_eq_some c p).mp hp⟩

/-- The five phases have the legal codes (R75). -/
theorem code_lt_five (p : Phase) : p.code.toNat < 5 := by cases p <;> decide

/-- Writing the phase register with what it holds changes nothing. -/
theorem State.withPhase_of_phase {s : State} {p : Phase} (h : s.phase = p.code) : s.withPhase p = s := by
  simp only [State.withPhase, ← h]

/-! R27 phase by phase: what `exp`, `cnt` and `chk` say of the attempt. -/

/-- No attempt is recorded: the registers are as ResetAttempt leaves them (R110). -/
def State.attemptCleared (s : State) : Prop := s.exp = 0 ∧ s.cnt = 0 ∧ s.chk = 0

/-- A payload byte is still to come, and `chk` folds those received. -/
def State.attemptOpen (s : State) : Prop :=
  1 ≤ s.exp.toNat ∧ s.cnt.toNat < s.exp.toNat ∧ s.chk = xorFold (s.payload s.cnt.toNat)

/-- The whole payload is received, and `chk` is its fold. -/
def State.attemptFull (s : State) : Prop :=
  1 ≤ s.exp.toNat ∧ s.cnt = s.exp ∧ s.chk = xorFold (s.payload s.exp.toNat)

/-- What (I-b) to (I-e) of R27 say of the registers in phase `p`. -/
def State.attemptIn (s : State) : Phase → Prop
  | .awaitStart => s.attemptCleared ∨ s.attemptFull
  | .awaitLength => s.attemptCleared
  | .awaitPayload => s.attemptOpen
  | .awaitChecksum => s.attemptFull
  | .awaitEnd => s.attemptFull

theorem State.resetAttempt_attemptCleared (s : State) : s.resetAttempt.attemptCleared := ⟨rfl, rfl, rfl⟩

/-- What a phase's clause says concerns the datapath only: neither the phase nor the pulses nor the edge count enter. -/
theorem State.attemptIn_edgeEnd (s : State) (p q : Phase) (ev : Event) :
    ((s.withPhase p).commit ev).afterEdge.attemptIn q ↔ s.attemptIn q := by
  cases q <;> rfl

/-- `cnt <= exp` of (I-a) is a consequence of the phase's own clause. -/
theorem State.attemptIn.cnt_le_exp {s : State} {p : Phase} (h : s.attemptIn p) : s.cnt.toNat ≤ s.exp.toNat := by
  have of_cleared : s.attemptCleared → s.cnt.toNat ≤ s.exp.toNat := fun ⟨hexp, hcnt, _⟩ => by rw [hexp, hcnt]
  have of_full : s.attemptFull → s.cnt.toNat ≤ s.exp.toNat := fun ⟨_, hcnt, _⟩ => hcnt ▸ le_rfl
  cases p with
  | awaitStart => exact h.elim of_cleared of_full
  | awaitLength => exact of_cleared h
  | awaitPayload => obtain ⟨_, hlt, _⟩ := h; exact hlt.le
  | awaitChecksum | awaitEnd => exact of_full h

/-- The clause of R27 that the invariant gives in phase `p`. -/
theorem Inv.attemptIn {P : Params} {s : State} {p : Phase} (hinv : Inv P s) (hphase : s.phase = p.code) :
    s.attemptIn p := by
  cases p with
  | awaitStart => exact hinv.in_start hphase
  | awaitLength => exact hinv.in_length hphase
  | awaitPayload => exact hinv.in_payload hphase
  | awaitChecksum => exact hinv.in_check (.inl hphase)
  | awaitEnd => exact hinv.in_check (.inr hphase)

/-- The invariant from the clause of the one phase the register holds. -/
theorem Inv.of_attemptIn {P : Params} {s : State} {p : Phase} (hphase : s.phase = p.code) (hregs : s.attemptIn p)
    (hexp : s.exp.toNat < P.cap) (hpulse : ¬ (s.okR = true ∧ s.errR = true)) (hwf : Memory.wf s.buf = true)
    (hwithin : Memory.within s.buf (P.cap - 1)) : Inv P s := by
  have clause {q : Phase} (h : s.phase = q.code) : s.attemptIn q :=
    phase_code_injective (hphase.symm.trans h) ▸ hregs
  exact
    { phase_legal := hphase ▸ code_lt_five p
      counts := ⟨hregs.cnt_le_exp, hexp⟩
      in_length := clause
      in_payload := clause
      in_check := fun h => h.elim clause clause
      in_start := clause
      one_pulse := hpulse
      buf_wf := hwf
      buf_within := hwithin }

/-- A build in which some state has the invariant has a buffer, for `exp < CAP` by (I-a). -/
theorem Inv.cap_pos {P : Params} {s : State} (hinv : Inv P s) : 0 < P.cap := Nat.zero_lt_of_lt hinv.counts.2

/-- The invariant does not read the input cycles still to come. -/
theorem Inv.withInputs {P : Params} {s : State} (hinv : Inv P s) (l : List InputCycle) :
    Inv P { s with inputs := l } :=
  { hinv with }

/-! The four ways an edge leaves the registers, each with the invariant: cleared, held, loaded, counted. -/

/-- One event raises one pulse at most (I-f). -/
theorem commit_one_pulse (s : State) (ev : Event) : ¬ ((s.commit ev).okR = true ∧ (s.commit ev).errR = true) := by
  cases ev <;> simp

/-- An edge that ends in phase `p` with its event committed has the invariant if its datapath satisfies `p`'s clause. -/
theorem inv_edgeEnd {P : Params} {s : State} {p : Phase} (ev : Event) (hregs : s.attemptIn p)
    (hexp : s.exp.toNat < P.cap) (hwf : Memory.wf s.buf = true) (hwithin : Memory.within s.buf (P.cap - 1)) :
    Inv P ((s.withPhase p).commit ev).afterEdge :=
  .of_attemptIn (p := p) rfl ((s.attemptIn_edgeEnd p p ev).mpr hregs) hexp
    (commit_one_pulse (s.withPhase p) ev) hwf hwithin

/-- The state after RESET has the invariant, whatever the registers before (R250). -/
theorem inv_resetEdge {P : Params} {s : State} (hcap : 0 < P.cap) (hwf : Memory.wf s.buf = true)
    (hwithin : Memory.within s.buf (P.cap - 1)) : Inv P s.resetEdge.afterEdge :=
  .of_attemptIn (p := .awaitStart) rfl (.inl ⟨rfl, rfl, rfl⟩) hcap (by simp) hwf hwithin

/-- After ResetAttempt the invariant holds in either phase that admits cleared registers. -/
theorem Inv.cleared {P : Params} {s : State} (hinv : Inv P s) (ev : Event) {p : Phase}
    (hregs : s.resetAttempt.attemptIn p) : Inv P ((s.resetAttempt.withPhase p).commit ev).afterEdge :=
  inv_edgeEnd ev hregs hinv.cap_pos hinv.buf_wf hinv.buf_within

/-- With every register held, the invariant carries over to any phase whose clause the registers satisfy. -/
theorem Inv.held {P : Params} {s : State} (hinv : Inv P s) (ev : Event) {p : Phase} (hregs : s.attemptIn p) :
    Inv P ((s.withPhase p).commit ev).afterEdge :=
  inv_edgeEnd ev hregs hinv.counts.2 hinv.buf_wf hinv.buf_within

/-- Loading a legal length in AwaitLength opens the attempt with no byte received (R130). -/
theorem Inv.lenAccept {P : Params} {s : State} (hinv : Inv P s) (hphase : s.phase = Phase.code .awaitLength) {b : Byte}
    (hpos : 0 < b.toNat) (hcap : b.toNat < P.cap) : Inv P ((s.lenAccept b).commit .none).afterEdge := by
  obtain ⟨-, hcnt, hchk⟩ := hinv.in_length hphase
  have hopen : ({ s with exp := b } : State).attemptOpen :=
    ⟨hpos, by simpa [hcnt] using hpos, by simp [hcnt, hchk, payload_zero]⟩
  exact inv_edgeEnd (s := { s with exp := b }) (p := .awaitPayload) .none hopen hcap hinv.buf_wf hinv.buf_within

/-- After a payload byte is accepted, `chk` is the fold of the payload with that byte at its end (R142). -/
theorem acceptByte_chk_eq_fold {s : State} (b : Byte) (h : s.attemptOpen) :
    (s.acceptByte b).chk = xorFold ((s.acceptByte b).payload (s.cnt.toNat + 1)) := by
  obtain ⟨-, -, hchk⟩ := h
  rw [acceptByte_payload_succ, xorFold_snoc, State.acceptByte_chk, hchk]

/-- A byte that is not the last leaves the attempt open (R140). -/
theorem acceptByte_attemptOpen {s : State} (b : Byte) (h : s.attemptOpen) (hmore : s.cnt.toNat + 1 < s.exp.toNat) :
    (s.acceptByte b).attemptOpen := by
  have ⟨hpos, hlt, _⟩ := h
  have hcnt : (s.cnt + 1).toNat = s.cnt.toNat + 1 := toNat_succ_of_lt hlt
  refine ⟨hpos, hcnt ▸ hmore, ?_⟩
  rw [State.acceptByte_cnt, hcnt]
  exact acceptByte_chk_eq_fold b h

/-- The last byte completes the attempt (R141). -/
theorem acceptByte_attemptFull {s : State} (b : Byte) (h : s.attemptOpen) (hlast : s.cnt.toNat + 1 = s.exp.toNat) :
    (s.acceptByte b).attemptFull := by
  have ⟨hpos, hlt, _⟩ := h
  have hcnt : (s.cnt + 1).toNat = s.cnt.toNat + 1 := toNat_succ_of_lt hlt
  refine ⟨hpos, BitVec.eq_of_toNat_eq (hcnt.trans hlast), ?_⟩
  rw [State.acceptByte_exp, ← hlast]
  exact acceptByte_chk_eq_fold b h

/-- Accepting a payload byte writes an entry below `exp`, so below `CAP - 1` (R56), and keeps the invariant in the phase
whose clause the counted registers satisfy. -/
theorem Inv.acceptByte {P : Params} {s : State} (hinv : Inv P s) (hphase : s.phase = Phase.code .awaitPayload) (b : Byte)
    {p : Phase} (hregs : (s.acceptByte b).attemptIn p) :
    Inv P (((s.acceptByte b).withPhase p).commit .none).afterEdge := by
  obtain ⟨-, hlt, -⟩ := hinv.in_payload hphase
  have ⟨_, hexp⟩ := hinv.counts
  exact inv_edgeEnd .none hregs hexp (wf_write b s.cnt.isLt hinv.buf_wf)
    (within_write b (by omega) hinv.buf_within)

/-! Edges, steps and runs. -/

/-- Every edge keeps the invariant of R27, in every build. -/
theorem EdgeStep.keeps_inv {P : Params} {c : InputCycle} {s t : State} (h : EdgeStep P c s t) (hinv : Inv P s) :
    Inv P t := by
  cases h with
  | reset _ => exact inv_resetEdge hinv.cap_pos hinv.buf_wf hinv.buf_within
  | recover _ hp => exact absurd hinv.phase_legal (by omega)
  | idle _ hp _ =>
    obtain ⟨p, hphase⟩ := exists_code_of_lt_five hp
    have hheld := hinv.held .none (hinv.attemptIn hphase)
    rwa [State.withPhase_of_phase hphase] at hheld
  | startDetect _ _ _ _ => exact hinv.cleared .none (p := .awaitLength) s.resetAttempt_attemptCleared
  | noise _ _ hp _ => exact hinv.held .none (hinv.attemptIn hp)
  | lenReject _ _ _ _ => exact hinv.cleared _ (p := .awaitStart) (.inl s.resetAttempt_attemptCleared)
  | lenAccept _ _ hp hb => exact hinv.lenAccept hp hb.1 hb.2
  | payNext _ _ hp hb =>
    exact hinv.acceptByte hp _ (p := .awaitPayload) (acceptByte_attemptOpen _ (hinv.in_payload hp) hb)
  | payLast _ _ hp hb =>
    exact hinv.acceptByte hp _ (p := .awaitChecksum) (acceptByte_attemptFull _ (hinv.in_payload hp) hb)
  | ckMatch _ _ hp _ => exact hinv.held .none (p := .awaitEnd) (hinv.in_check (.inl hp))
  | ckMismatch _ _ _ _ => exact hinv.cleared _ (p := .awaitStart) (.inl s.resetAttempt_attemptCleared)
  | endOk _ _ hp _ | endBad _ _ hp _ => exact hinv.held _ (p := .awaitStart) (.inr (hinv.in_check (.inr hp)))

/-- From a state with the invariant, every edge gives a next state, and that has the invariant too. -/
theorem Inv.exists_clockEdge_next {P : Params} {s : State} (hinv : Inv P s) (c : InputCycle) :
    ∃ t, clockEdge P c s = .next t ∧ Inv P t := by
  rcases clockEdge_cases P c s with ⟨t, ht⟩ | ⟨-, -, -, -, hfault⟩
  · exact ⟨t, ht.clockEdge_eq, ht.keeps_inv hinv⟩
  · exact absurd hfault (hinv.clockEdge_ne_fault c _)

/-- A step that gives a next state is an edge with the first listed input cycle, taken off the list (R103, R112). -/
theorem step_next {s t : State} (h : step s = .next t) :
    ∃ c cs, s.inputs = c :: cs ∧ EdgeStep Config.hw c { s with inputs := cs } t := by
  unfold step at h
  split at h
  next => cases h
  next c cs hinputs => exact ⟨c, cs, hinputs, clockEdge_next_iff.mp h⟩

/-- What every edge keeps holds at the end of every run that gives a next state. -/
theorem run_keeps {P : Params} {I : State → Prop} (hedge : ∀ {c s t}, EdgeStep P c s t → I s → I t)
    {cs : List InputCycle} {s t : State} (hs : I s) (h : run P cs s = .next t) : I t := by
  induction cs generalizing s with
  | nil => cases h; exact hs
  | cons c cs ih =>
    obtain ⟨u, hu, hrun⟩ := run_cons_next h
    exact ih (hedge hu hs) hrun

/-- A run from a state with the invariant gives a next state (R15, I4). -/
theorem Inv.exists_run_next {P : Params} {s : State} (hinv : Inv P s) (cs : List InputCycle) :
    ∃ t, run P cs s = .next t := by
  induction cs generalizing s with
  | nil => exact ⟨s, rfl⟩
  | cons c cs ih =>
    obtain ⟨u, hu, hinv'⟩ := hinv.exists_clockEdge_next c
    obtain ⟨t, ht⟩ := ih hinv'
    exact ⟨t, (run_cons hu).trans ht⟩

/-- `State.reset` is the state that a reset edge, edge 0, leaves of a buffer no byte was written to (C5). -/
theorem reset_eq_resetEdge : State.reset = ({ State.reset with edge := 0 } : State).resetEdge.afterEdge := rfl

/-- A reset edge on a buffer no byte was written to establishes the invariant. -/
theorem inv_resetEdge_of_buf_nil {P : Params} (hP : P.legal) {s : State} (hbuf : s.buf = []) :
    Inv P s.resetEdge.afterEdge :=
  inv_resetEdge (Nat.zero_lt_of_lt hP.1) (hbuf ▸ rfl) (hbuf ▸ within_nil _)

theorem inv_reset {P : Params} (hP : P.legal) : Inv P State.reset :=
  reset_eq_resetEdge ▸ inv_resetEdge_of_buf_nil hP rfl

/-- Settles O25: the step is an edge, the invariant does not read the listed inputs, and every edge keeps it. -/
theorem stepKeepsInvariant : Obligations.StepKeepsInvariant := by
  intro s t hinv h
  obtain ⟨c, cs, -, hedge⟩ := step_next h
  exact hedge.keeps_inv (hinv.withInputs cs)

/-- Settles O26: the invariant holds at reset, and by induction on the run, for every edge keeps it. -/
theorem invariantHoldsInReachableStates : Obligations.InvariantHoldsInReachableStates :=
  fun _ hP => ⟨inv_reset hP, fun _ _ _ hinv h => run_keeps EdgeStep.keeps_inv hinv h⟩

/-- Settles O28: by induction on the input cycles; in a state with the invariant no edge faults, and every edge keeps it. -/
theorem runsFromInvariantStatesNeverStop : Obligations.RunsFromInvariantStatesNeverStop :=
  fun _ _ cs _ hinv => hinv.exists_run_next cs

/-- Settles O24: RESET clears what the invariant reads of the registers, and the buffer has no entry yet. -/
theorem invariantHoldsAtReset : Obligations.InvariantHoldsAtReset :=
  fun _ hP => ⟨inv_reset hP, fun _ _ hbuf hrst =>
    ⟨_, (EdgeStep.reset hrst).clockEdge_eq, inv_resetEdge_of_buf_nil hP hbuf⟩⟩

/-! The writers of the registers. -/

/-- Settles O35: operation by operation; the registers are held by IDLE, NOISE, CK_MATCH, END_OK and END_BAD, cleared by the
operations that run ResetAttempt and by RESET, loaded by LEN_ACCEPT, and counted by PAY_NEXT and PAY_LAST. -/
theorem registerWriters : Obligations.RegisterWriters := by
  intro P c s t h
  cases clockEdge_next_iff.mp h with
  | idle | noise | ckMatch | endOk | endBad => exact .inl ⟨rfl, rfl, rfl⟩
  | reset hrst => exact .inr (.inl ⟨rfl, rfl, rfl, .inl hrst⟩)
  | recover _ hp => exact .inr (.inl ⟨rfl, rfl, rfl, .inr (.inl hp)⟩)
  | startDetect hrst hv hp hb => exact .inr (.inl ⟨rfl, rfl, rfl, .inr (.inr (.inl ⟨hp, hrst, hv, hb⟩))⟩)
  | lenReject hrst hv hp hb =>
    exact .inr (.inl ⟨rfl, rfl, rfl, .inr (.inr (.inr (.inl ⟨hp, ⟨hrst, hv, rfl⟩, hb⟩)))⟩)
  | ckMismatch hrst hv hp hb =>
    exact .inr (.inl ⟨rfl, rfl, rfl, .inr (.inr (.inr (.inr ⟨hp, ⟨hrst, hv, rfl⟩, hb⟩)))⟩)
  | lenAccept hrst hv hp hb => exact .inr (.inr (.inl ⟨rfl, rfl, rfl, hp, ⟨hrst, hv, rfl⟩, hb⟩))
  | payNext hrst hv hp hb | payLast hrst hv hp hb =>
    exact .inr (.inr (.inr ⟨rfl, rfl, rfl, hp, ⟨hrst, hv, rfl⟩, by omega⟩))

end Sys2Proof.Machine
end

section
/-!
What an edge does to the payload buffer (20_memory.md sections 1, 3 and 4): the one write and its address, that entry
`CAP-1` is out of its reach, and how many bytes must be consumed before it reaches entry `i`.
-/

namespace Sys2Proof.Machine

/-! The one write of the buffer. -/

/-- No edge changes the power-up draw of the unwritten entries (I1). -/
theorem EdgeStep.powerUp_eq {P : Params} {c : InputCycle} {s t : State} (h : EdgeStep P c s t) :
    t.powerUp = s.powerUp := by
  cases h <;> rfl

/-- An edge leaves the buffer as it was, or accepts the presented byte in AwaitPayload with `cnt < exp` (R51, R57). -/
theorem EdgeStep.buf_cases {P : Params} {c : InputCycle} {s t : State} (h : EdgeStep P c s t) :
    t.buf = s.buf ∨
      (t.buf = (s.acceptByte c.inData).buf ∧ c.presents c.inData ∧ s.phase = Phase.code .awaitPayload ∧
        s.cnt.toNat < s.exp.toNat) := by
  cases h with
  | payNext hrst hv hp hb | payLast hrst hv hp hb => exact .inr ⟨rfl, ⟨hrst, hv, rfl⟩, hp, by omega⟩
  | _ => exact .inl rfl

/-- Every edge keeps the buffer's canonical form, for the write address `cnt` is a byte (R50). -/
theorem EdgeStep.keeps_buf_wf {P : Params} {c : InputCycle} {s t : State} (h : EdgeStep P c s t)
    (hwf : Memory.wf s.buf = true) : Memory.wf t.buf = true := by
  rcases h.buf_cases with hbuf | ⟨hbuf, -⟩
  · exact hbuf ▸ hwf
  · exact hbuf ▸ wf_write _ s.cnt.isLt hwf

/-- An entry that reads otherwise after an edge is entry `cnt`, written with the byte consumed in AwaitPayload (R51). -/
theorem EdgeStep.writes_only_cnt {P : Params} {c : InputCycle} {s t : State} (h : EdgeStep P c s t) {a : Nat}
    (hne : t.bufRead a ≠ s.bufRead a) :
    c.presents (t.bufRead a) ∧ s.phase = Phase.code .awaitPayload ∧ a = s.cnt.toNat ∧
      s.cnt.toNat < s.exp.toNat := by
  rcases h.buf_cases with hbuf | ⟨hbuf, hpres, hphase, hlt⟩
  · exact absurd (bufRead_congr hbuf h.powerUp_eq a) hne
  · have hread : t.bufRead a = (s.acceptByte c.inData).bufRead a := bufRead_congr hbuf h.powerUp_eq a
    by_cases ha : a = s.cnt.toNat
    · subst ha
      rw [acceptByte_bufRead_same] at hread
      exact ⟨hread.symm ▸ hpres, hphase, rfl, hlt⟩
    · exact absurd (hread.trans (acceptByte_bufRead_other s _ ha)) hne

/-- Settles O27: the step is an edge, and every edge keeps the canonical form. -/
theorem stepKeepsBufferCanonical : Obligations.StepKeepsBufferCanonical := by
  intro s t hwf h
  obtain ⟨c, cs, -, hedge⟩ := step_next h
  exact hedge.keeps_buf_wf hwf

/-- Settles O32: of the operations only PAY_NEXT and PAY_LAST write the buffer, and only at address `cnt`. -/
theorem onlyPayloadBytesWriteBuffer : Obligations.OnlyPayloadBytesWriteBuffer :=
  fun _ _ _ _ _ h hne => (clockEdge_next_iff.mp h).writes_only_cnt hne

/-! Entry `CAP-1`. -/

/-- With the invariant of R27 an edge leaves entry `CAP-1` alone: it writes entry `cnt`, and `cnt < exp < CAP` (R56). -/
theorem EdgeStep.keeps_last_entry {P : Params} {c : InputCycle} {s t : State} (h : EdgeStep P c s t)
    (hinv : Inv P s) : t.bufRead (P.cap - 1) = s.bufRead (P.cap - 1) := by
  by_contra hne
  obtain ⟨-, -, haddr, hlt⟩ := h.writes_only_cnt hne
  have ⟨_, hexp⟩ := hinv.counts
  omega

/-- Settles O33: along the run every state has the invariant, so no edge writes entry `CAP-1`. -/
theorem lastEntryIsNeverWritten : Obligations.LastEntryIsNeverWritten := by
  intro P _ cs s t hinv h
  obtain ⟨-, hread⟩ : Inv P t ∧ t.bufRead (P.cap - 1) = s.bufRead (P.cap - 1) :=
    run_keeps (I := fun u => Inv P u ∧ u.bufRead (P.cap - 1) = s.bufRead (P.cap - 1))
      (fun hedge ⟨hu, hread⟩ => ⟨hedge.keeps_inv hu, (hedge.keeps_last_entry hu).trans hread⟩) ⟨hinv, rfl⟩ h
  exact hread

/-! The bytes consumed before an entry can be written. -/

/-- The first cycle's byte, if it is consumed, comes before those of the later cycles. -/
theorem consumedBytes_cons (c : InputCycle) (cs : List InputCycle) :
    consumedBytes (c :: cs) = consumedBytes [c] ++ consumedBytes cs := by
  cases h : !c.rst && c.inValid <;> simp [consumedBytes, h]

/-- A cycle that presents a byte consumes that one byte (R256). -/
theorem InputCycle.presents.consumedBytes_eq {c : InputCycle} {b : Byte} (h : c.presents b) :
    consumedBytes [c] = [b] := by
  obtain ⟨hrst, hv, hb⟩ := h
  simp [consumedBytes, hrst, hv, hb]

/-- What the pending attempt has taken fits in `n` consumed bytes: START_MARKER in AwaitLength, where none is counted yet,
and in AwaitPayload START_MARKER, LENGTH and `cnt` payload bytes (R71). -/
structure State.attemptFits (s : State) (n : Nat) : Prop where
  in_length : s.phase = Phase.code .awaitLength → s.cnt = 0 ∧ 1 ≤ n
  in_payload : s.phase = Phase.code .awaitPayload → s.cnt.toNat + 2 ≤ n

/-- A phase before the length or after the payload asks for no byte. -/
theorem State.attemptFits_of_phase {s : State} {p : Phase} (hphase : s.phase = p.code) (n : Nat)
    (hlength : p ≠ .awaitLength) (hpayload : p ≠ .awaitPayload) : s.attemptFits n where
  in_length h := absurd (phase_code_injective (hphase.symm.trans h)) hlength
  in_payload h := absurd (phase_code_injective (hphase.symm.trans h)) hpayload

theorem State.attemptFits_of_awaitLength {s : State} {n : Nat} (hphase : s.phase = Phase.code .awaitLength)
    (hcnt : s.cnt = 0) (hn : 1 ≤ n) : s.attemptFits n where
  in_length _ := ⟨hcnt, hn⟩
  in_payload h := Phase.noConfusion (phase_code_injective (hphase.symm.trans h))

theorem State.attemptFits_of_awaitPayload {s : State} {n : Nat} (hphase : s.phase = Phase.code .awaitPayload)
    (hn : s.cnt.toNat + 2 ≤ n) : s.attemptFits n where
  in_length h := Phase.noConfusion (phase_code_injective (hphase.symm.trans h))
  in_payload _ := hn

/-- An edge that takes the attempt one byte further consumes that byte. -/
theorem EdgeStep.keeps_attemptFits {P : Params} {c : InputCycle} {s t : State} (h : EdgeStep P c s t) {n : Nat}
    (hfits : s.attemptFits n) : t.attemptFits (n + (consumedBytes [c]).length) := by
  have one_byte (hrst : c.rst = false) (hv : c.inValid = true) : (consumedBytes [c]).length = 1 :=
    congrArg List.length (InputCycle.presents.consumedBytes_eq ⟨hrst, hv, rfl⟩)
  cases h with
  | reset | recover | noise | lenReject | ckMismatch | endOk | endBad =>
    exact State.attemptFits_of_phase (p := .awaitStart) rfl _ nofun nofun
  | payLast => exact State.attemptFits_of_phase (p := .awaitChecksum) rfl _ nofun nofun
  | ckMatch => exact State.attemptFits_of_phase (p := .awaitEnd) rfl _ nofun nofun
  | idle =>
    exact
      { in_length := fun hp => (hfits.in_length hp).imp_right Nat.le_add_right_of_le
        in_payload := fun hp => Nat.le_add_right_of_le (hfits.in_payload hp) }
  | startDetect hrst hv _ _ =>
    rw [one_byte hrst hv]
    exact State.attemptFits_of_awaitLength rfl rfl (Nat.le_add_left 1 n)
  | lenAccept hrst hv hp _ =>
    rw [one_byte hrst hv]
    obtain ⟨hcnt, hn⟩ := hfits.in_length hp
    exact State.attemptFits_of_awaitPayload rfl (by simpa [hcnt] using hn)
  | payNext hrst hv hp hb =>
    rw [one_byte hrst hv]
    have hn := hfits.in_payload hp
    have hcnt : (s.cnt + 1).toNat = s.cnt.toNat + 1 := toNat_succ_of_lt (Nat.lt_of_succ_lt hb)
    exact State.attemptFits_of_awaitPayload rfl (show (s.cnt + 1).toNat + 2 ≤ n + 1 by omega)

/-- An edge leaves entry `i` alone when fewer than `3 + i` bytes are consumed by its end: entry `cnt` is written by a byte
that comes after START_MARKER, LENGTH and `cnt` payload bytes. -/
theorem EdgeStep.keeps_entry {P : Params} {c : InputCycle} {s t : State} (h : EdgeStep P c s t) {n i : Nat}
    (hfits : s.attemptFits n) (hlt : n + (consumedBytes [c]).length < 3 + i) : t.bufRead i = s.bufRead i := by
  by_contra hne
  obtain ⟨hpres, hphase, haddr, -⟩ := h.writes_only_cnt hne
  have hn := hfits.in_payload hphase
  rw [hpres.consumedBytes_eq, List.length_singleton] at hlt
  omega

/-- A run leaves entry `i` alone as long as fewer than `3 + i` bytes are consumed, the `n` bytes before it included. -/
theorem run_keeps_entry {P : Params} {cs : List InputCycle} {s t : State} {n i : Nat} (hfits : s.attemptFits n)
    (h : run P cs s = .next t) (hlt : n + (consumedBytes cs).length < 3 + i) : t.bufRead i = s.bufRead i := by
  induction cs generalizing s n with
  | nil => cases h; rfl
  | cons c cs ih =>
    obtain ⟨u, hu, hrun⟩ := run_cons_next h
    rw [consumedBytes_cons, List.length_append] at hlt
    calc t.bufRead i = u.bufRead i := ih (hu.keeps_attemptFits hfits) hrun (by omega)
      _ = s.bufRead i := hu.keeps_entry hfits (by omega)

/-- Settles O48: in AwaitStart no attempt is pending, and the write of entry `i` is at the earliest the `(3 + i)`-th byte. -/
theorem bufferIsStableAfterSuccess : Obligations.BufferIsStableAfterSuccess := by
  intro P cs s t i hphase h hlt
  have hfits : s.attemptFits 0 :=
    State.attemptFits_of_phase (p := .awaitStart) hphase 0 nofun nofun
  exact run_keeps_entry hfits h (by omega)

end Sys2Proof.Machine
end

section
/-!
The decoder and the encoder are inverse to each other (30_encoding.md R78, R79): `decode` phase by phase, that it reads the
registers of rows 9 to 12 alone, that it undoes `encode`, and that `encode` reaches every event word but the AwaitPayload
ones with `cnt >= exp`. The round trips, totality and the placing of a table word follow from these.
-/

namespace Sys2Proof

open Machine

/-! What `decode` answers, in the order of R78's rows. -/

theorem decode_reset (P : Params) (r : Regs) (v : Bool) (p : PhaseCode) (b : Byte) :
    decode P r (eventWord true v p b) = .ok (.reset v p b) :=
  decode_eventWord ..

theorem decode_recover101 (P : Params) (r : Regs) (v : Bool) (b : Byte) :
    decode P r (eventWord false v 0b101 b) = .ok (.recover101 v b) :=
  decode_eventWord ..

theorem decode_recover11x (P : Params) (r : Regs) (v low : Bool) (b : Byte) :
    decode P r (eventWord false v (0b11#2 ++ BitVec.ofBool low) b) = .ok (.recover11x v low b) := by
  cases low <;> exact decode_eventWord ..

theorem decode_idle (P : Params) (r : Regs) {p : PhaseCode} (hp : p.toNat < 5) (b : Byte) :
    decode P r (eventWord false false p b) = .ok (.idle p b) := by
  obtain ⟨q, rfl⟩ := exists_code_of_lt_five hp
  cases q <;> exact decode_eventWord ..

theorem decode_awaitStart (P : Params) (r : Regs) (b : Byte) :
    decode P r (eventWord false true 0b000 b) = if b = P.startMarker then .ok .startDetect else .ok (.noise b) :=
  decode_eventWord ..

theorem decode_awaitLength (P : Params) (r : Regs) (b : Byte) :
    decode P r (eventWord false true 0b001 b) =
      if b.toNat = 0 ∨ P.cap ≤ b.toNat then .ok (.lenReject b) else .ok (.lenAccept b) :=
  decode_eventWord ..

theorem decode_awaitPayload (P : Params) (r : Regs) (b : Byte) :
    decode P r (eventWord false true 0b010 b) =
      if r.cnt.toNat + 1 < r.exp.toNat then .ok (.payNext b)
      else if r.cnt.toNat + 1 = r.exp.toNat then .ok (.payLast b)
      else .error .payloadBound :=
  decode_eventWord ..

theorem decode_awaitChecksum (P : Params) (r : Regs) (b : Byte) :
    decode P r (eventWord false true 0b011 b) = if b = r.chk then .ok (.ckMatch b) else .ok (.ckMismatch b) :=
  decode_eventWord ..

theorem decode_awaitEnd (P : Params) (r : Regs) (b : Byte) :
    decode P r (eventWord false true 0b100 b) = if b = P.endMarker then .ok .endOk else .ok (.endBad b) :=
  decode_eventWord ..

/-- `decode` reads `cnt` and `exp` in AwaitPayload, `chk` in AwaitChecksum, and no register otherwise (rows 9 to 12). -/
theorem decode_congr_regs (P : Params) {r r' : Regs} {ev : EventWord}
    (hpayload : eventPhase ev = 0b010 → r.cnt = r'.cnt ∧ r.exp = r'.exp)
    (hchecksum : eventPhase ev = 0b011 → r.chk = r'.chk) : decode P r ev = decode P r' ev := by
  rw [← eventWord_fields ev, decode_eventWord, decode_eventWord]
  by_cases h2 : eventPhase ev = 0b010
  · obtain ⟨hcnt, hexp⟩ := hpayload h2
    simp [selects, h2, hcnt, hexp]
  · by_cases h3 : eventPhase ev = 0b011
    · simp [selects, h3, hchecksum h3]
    · simp only [selects, if_neg h2, if_neg h3]

/-! Decode after encode. -/

/-- `decode` undoes `encode` on the operations admitted by the build and the registers: no row above an operation's own
takes its event word. -/
theorem decode_encode {P : Params} {r : Regs} {i : Instr} (hwf : i.wellFormed P = true) (hen : i.enabled r = true) :
    decode P r (encode P i) = .ok i := by
  cases i with
  | reset v p b => exact decode_reset P r v p b
  | recover101 v b => exact decode_recover101 P r v b
  | recover11x v low b => exact decode_recover11x P r v low b
  | idle p b => exact decode_idle P r (of_decide_eq_true hwf) b
  | startDetect => exact (decode_awaitStart P r _).trans (if_pos rfl)
  | noise b => exact (decode_awaitStart P r b).trans (if_neg (of_decide_eq_true hwf))
  | lenReject b => exact (decode_awaitLength P r b).trans (if_pos (of_decide_eq_true hwf))
  | lenAccept b =>
    have hlen : 0 < b.toNat ∧ b.toNat < P.cap := of_decide_eq_true hwf
    exact (decode_awaitLength P r b).trans (if_neg (by omega))
  | payNext b => exact (decode_awaitPayload P r b).trans (if_pos ((morePayload_iff r).mp hen))
  | payLast b =>
    have hlast : r.cnt.toNat + 1 = r.exp.toNat := (lastPayload_iff r).mp hen
    exact (decode_awaitPayload P r b).trans ((if_neg hlast.not_lt).trans (if_pos hlast))
  | ckMatch b => exact (decode_awaitChecksum P r b).trans (if_pos (of_decide_eq_true hen))
  | ckMismatch b => exact (decode_awaitChecksum P r b).trans (if_neg (of_decide_eq_true hen))
  | endOk => exact (decode_awaitEnd P r _).trans (if_pos rfl)
  | endBad b => exact (decode_awaitEnd P r b).trans (if_neg (of_decide_eq_true hwf))

/-- Settles O17: operation by operation, by what `decode` answers in the operation's phase. -/
theorem decodeOfEncodeIsIdentity : Obligations.DecodeOfEncodeIsIdentity := fun _ _ _ => decode_encode

/-- A word that an admitted operation encodes to decodes to that operation. -/
theorem decode_of_encode_eq {P : Params} {r : Regs} {i : Instr} {ev : EventWord} (henc : encode P i = ev)
    (hwf : i.wellFormed P = true) (hen : i.enabled r = true) : decode P r ev = .ok i :=
  henc ▸ decode_encode hwf hen

/-! Which event words an operation encodes to. -/

/-- The event words that R79 leaves without a row: a byte consumed in AwaitPayload with `cnt >= exp`. -/
def exceedsPayload (r : Regs) (ev : EventWord) : Prop :=
  eventRst ev = false ∧ eventValid ev = true ∧ eventPhase ev = 0b010 ∧ ¬ r.cnt.toNat < r.exp.toNat

theorem decode_of_exceedsPayload (P : Params) {r : Regs} {ev : EventWord} (h : exceedsPayload r ev) :
    decode P r ev = .error .payloadBound := by
  obtain ⟨hrst, hvalid, hphase, hfull⟩ := h
  rw [← eventWord_fields ev, hrst, hvalid, hphase, decode_awaitPayload, if_neg (by omega), if_neg (by omega)]

/-- The words of a byte consumed in a legal phase: each phase's rows share them out among admitted operations. -/
theorem exists_encode_of_consumed (P : Params) (r : Regs) (p : Phase) (b : Byte) :
    (∃ i, encode P i = eventWord false true p.code b ∧ i.wellFormed P = true ∧ i.enabled r = true) ∨
      (p = .awaitPayload ∧ ¬ r.cnt.toNat < r.exp.toNat) := by
  cases p with
  | awaitStart =>
    by_cases hb : b = P.startMarker
    · exact .inl ⟨.startDetect, by rw [hb]; rfl, rfl, rfl⟩
    · exact .inl ⟨.noise b, rfl, decide_eq_true hb, rfl⟩
  | awaitLength =>
    by_cases hb : b.toNat = 0 ∨ P.cap ≤ b.toNat
    · exact .inl ⟨.lenReject b, rfl, decide_eq_true hb, rfl⟩
    · exact .inl ⟨.lenAccept b, rfl, decide_eq_true (by omega), rfl⟩
  | awaitPayload =>
    by_cases hfull : r.cnt.toNat < r.exp.toNat
    · by_cases hmore : r.cnt.toNat + 1 < r.exp.toNat
      · exact .inl ⟨.payNext b, rfl, rfl, (morePayload_iff r).mpr hmore⟩
      · exact .inl ⟨.payLast b, rfl, rfl, (lastPayload_iff r).mpr (by omega)⟩
    · exact .inr ⟨rfl, hfull⟩
  | awaitChecksum =>
    by_cases hb : b = r.chk
    · exact .inl ⟨.ckMatch b, rfl, rfl, decide_eq_true hb⟩
    · exact .inl ⟨.ckMismatch b, rfl, rfl, decide_eq_true hb⟩
  | awaitEnd =>
    by_cases hb : b = P.endMarker
    · exact .inl ⟨.endOk, by rw [hb]; rfl, rfl, rfl⟩
    · exact .inl ⟨.endBad b, rfl, decide_eq_true hb, rfl⟩

/-- An illegal phase code is `101`, or `11` and a bit (R75). -/
theorem illegal_phaseCode_cases : ∀ {p : PhaseCode}, ¬ p.toNat < 5 →
    p = 0b101 ∨ ∃ low, p = 0b11#2 ++ BitVec.ofBool low := by decide

/-- Every event word is that of an admitted operation, but those of R79's exception. -/
theorem exists_encode_or_exceedsPayload (P : Params) (r : Regs) (ev : EventWord) :
    (∃ i, encode P i = ev ∧ i.wellFormed P = true ∧ i.enabled r = true) ∨ exceedsPayload r ev := by
  have hfields := eventWord_fields ev
  cases hrst : eventRst ev with
  | true => exact .inl ⟨.reset _ _ _, by rw [← hfields, hrst]; rfl, rfl, rfl⟩
  | false =>
    rw [hrst] at hfields
    by_cases hlegal : (eventPhase ev).toNat < 5
    · cases hvalid : eventValid ev with
      | false => exact .inl ⟨.idle _ _, hvalid ▸ hfields, decide_eq_true hlegal, rfl⟩
      | true =>
        obtain ⟨p, hphase⟩ := exists_code_of_lt_five hlegal
        rw [hvalid, hphase] at hfields
        refine (exists_encode_of_consumed P r p (eventByte ev)).imp (fun h => hfields ▸ h) ?_
        rintro ⟨rfl, hfull⟩
        exact ⟨hrst, hvalid, hphase, hfull⟩
    · rcases illegal_phaseCode_cases hlegal with hphase | ⟨low, hphase⟩
      · exact .inl ⟨.recover101 _ _, hphase ▸ hfields, rfl, rfl⟩
      · exact .inl ⟨.recover11x _ low _, hphase ▸ hfields, rfl, rfl⟩

/-- What a word decodes to is the admitted operation that encodes to it: there is one, and `decode` answers that one. -/
theorem encode_of_decode {P : Params} {r : Regs} {ev : EventWord} {i : Instr} (h : decode P r ev = .ok i) :
    encode P i = ev ∧ i.wellFormed P = true ∧ i.enabled r = true := by
  rcases exists_encode_or_exceedsPayload P r ev with ⟨j, henc, hwf, hen⟩ | hbound
  · cases h.symm.trans (decode_of_encode_eq henc hwf hen)
    exact ⟨henc, hwf, hen⟩
  · cases h.symm.trans (decode_of_exceedsPayload P hbound)

/-- Settles O18: some admitted operation encodes to the word, and by O17 it is the one the word decodes to. -/
theorem encodeOfDecodeIsIdentity : Obligations.EncodeOfDecodeIsIdentity := fun _ _ _ _ => encode_of_decode

/-- Settles O19: an admitted operation's word decodes to it, and the words of R79's exception decode to an error. -/
theorem decodeIsTotalButForPayloadBound : Obligations.DecodeIsTotalButForPayloadBound := by
  intro P r ev
  constructor
  · rintro ⟨i, hi⟩ hbound
    cases hi.symm.trans (decode_of_exceedsPayload P hbound)
  · intro hroom
    rcases exists_encode_or_exceedsPayload P r ev with ⟨i, henc, hwf, hen⟩ | hbound
    · exact ⟨i, decode_of_encode_eq henc hwf hen⟩
    · exact absurd hbound hroom

/-- Settles O16: each written word is what its operation encodes to, and the operation is well formed and enabled. -/
theorem writtenEventWordsDecode : Obligations.WrittenEventWordsDecode := by
  and_intros <;> exact decode_of_encode_eq rfl rfl rfl

namespace Machine

/-! The placing of a table word. -/

/-- A step with an input cycle listed is the edge with that cycle, taken off the list (R103, R112). -/
theorem step_of_inputs {s : State} {c : InputCycle} {cs : List InputCycle} (h : s.inputs = c :: cs) :
    step s = clockEdge Config.hw c { s with inputs := cs } := by
  simp only [step, h]

/-- Where an event word is placed it decodes as under `tableRegs`: the placing sets the registers its phase reads. -/
theorem decode_placeEvent (P : Params) (s : State) (ev : EventWord) :
    decode P (s.placeEvent ev).regs ev = decode P tableRegs ev := by
  refine decode_congr_regs P (fun hphase => ?_) (fun hphase => ?_) <;>
    simp [State.placeEvent, State.withTableRegs, hphase]

/-- A table word is read as the operation its event word decodes to under `tableRegs`. -/
theorem decode_of_decodeTableWord {nbits w : Nat} {i : Instr} (h : decodeTableWord nbits w = some i) :
    decode Config.hw tableRegs (tableEventWord nbits w) = .ok i := by
  unfold decodeTableWord at h
  cases hd : decode Config.hw tableRegs (tableEventWord nbits w) with
  | error e => rw [hd] at h; cases h
  | ok j => rw [hd] at h; cases h; rfl

/-- Settles O23: the step is an edge with the placed inputs, whose event word is the placed one, in registers that decode it
as the table does. -/
theorem placedWordIsRunNext : Obligations.PlacedWordIsRunNext := by
  intro s w i hi
  refine (step_of_inputs (placeEvent_inputs s (tableEventWord 16 w))).trans (clockEdge_of_decode ?_)
  calc decode Config.hw (s.placeEvent (tableEventWord 16 w)).regs
        ((s.placeEvent (tableEventWord 16 w)).eventWordOf (inputCycleOf (tableEventWord 16 w)))
      = decode Config.hw (s.placeEvent (tableEventWord 16 w)).regs (tableEventWord 16 w) := by
        rw [placeEvent_eventWordOf]
    _ = decode Config.hw tableRegs (tableEventWord 16 w) := decode_placeEvent ..
    _ = .ok i := decode_of_decodeTableWord hi

end Machine

end Sys2Proof
end

section
/-!
Single edges: when the operation map selects an operation, read off `encode` (30_encoding.md R78); the operations of no phase
(40_transition_framework.md R104, R107); the machine's step over its list of input cycles (R103, R112); the output ports
(R106).
-/

namespace Sys2Proof.Machine

/-! Which edges select an operation. -/

/-- An edge selects an operation exactly when its inputs and phase are the fields of the operation's event word, and R78
admits the operation in this build and these registers. -/
theorem selectedAt_iff_of_encode {P : Params} {c : InputCycle} {s : State} {i : Instr} {rst v : Bool} {p : PhaseCode}
    {b : Byte} (henc : encode P i = eventWord rst v p b) :
    selectedAt P c s i ↔
      (rst = c.rst ∧ v = c.inValid ∧ p = s.phase ∧ b = c.inData) ∧ i.wellFormed P = true ∧
        i.enabled s.regs = true := by
  have hfields : encode P i = s.eventWordOf c ↔ rst = c.rst ∧ v = c.inValid ∧ p = s.phase ∧ b = c.inData :=
    henc ▸ eventWord_inj ..
  rw [← hfields]
  exact ⟨encode_of_decode, fun ⟨hword, hwf, hen⟩ => decode_of_encode_eq hword hwf hen⟩

theorem selectedAt_recover101_iff {P : Params} {c : InputCycle} {s : State} :
    selectedAt P c s (.recover101 c.inValid c.inData) ↔ c.rst = false ∧ s.phase = 0b101 :=
  (selectedAt_iff_of_encode rfl).trans
    ⟨fun ⟨⟨hrst, _, hphase, _⟩, _⟩ => ⟨hrst.symm, hphase.symm⟩,
      fun ⟨hrst, hphase⟩ => ⟨⟨hrst.symm, rfl, hphase.symm, rfl⟩, rfl, rfl⟩⟩

theorem selectedAt_recover11x_iff {P : Params} {c : InputCycle} {s : State} {low : Bool} :
    selectedAt P c s (.recover11x c.inValid low c.inData) ↔
      c.rst = false ∧ s.phase = (if low then 0b111 else 0b110) := by
  have hcode : (0b11#2 ++ BitVec.ofBool low : PhaseCode) = if low then 0b111 else 0b110 := by cases low <;> rfl
  rw [← hcode]
  exact (selectedAt_iff_of_encode rfl).trans
    ⟨fun ⟨⟨hrst, _, hphase, _⟩, _⟩ => ⟨hrst.symm, hphase.symm⟩,
      fun ⟨hrst, hphase⟩ => ⟨⟨hrst.symm, rfl, hphase.symm, rfl⟩, rfl, rfl⟩⟩

theorem selectedAt_idle_iff {P : Params} {c : InputCycle} {s : State} :
    selectedAt P c s (.idle s.phase c.inData) ↔ c.rst = false ∧ s.phase.toNat < 5 ∧ c.inValid = false :=
  (selectedAt_iff_of_encode rfl).trans
    ⟨fun ⟨⟨hrst, hv, _, _⟩, hwf, _⟩ => ⟨hrst.symm, of_decide_eq_true hwf, hv.symm⟩,
      fun ⟨hrst, hlegal, hv⟩ => ⟨⟨hrst.symm, hv.symm, rfl, rfl⟩, decide_eq_true hlegal, rfl⟩⟩

/-! RECOVER and IDLE. -/

/-- An edge that signals nothing leaves the trace as it was (R105). -/
@[simp] theorem commit_none_trace (s : State) : (s.commit .none).trace = s.trace := List.append_nil _

/-- Settles O2: each row is selected by its own phase codes, the invariant has none of them, and both rows do `recover`. -/
theorem recoverLeavesIllegalPhase : Obligations.RecoverLeavesIllegalPhase := by
  intro s
  refine ⟨fun _ => selectedAt_recover101_iff, fun _ _ => selectedAt_recover11x_iff,
    fun _ hinv => Nat.not_le.mpr hinv.phase_legal, fun v low b _ => ?_⟩
  exact ⟨s.recover, exec_recover101 s v b, exec_recover11x s v low b, ⟨rfl, rfl, rfl, rfl, rfl, rfl⟩, fun _ => rfl,
    commit_none_trace _, rfl, rfl, rfl⟩

/-- Settles O3: IDLE commits no event, and does nothing else. -/
theorem idleHoldsAllState : Obligations.IdleHoldsAllState :=
  fun s => ⟨fun _ => selectedAt_idle_iff, fun p b hphase =>
    ⟨s.idleEdge, exec_idle s p.code b, ⟨hphase, rfl, rfl, rfl, rfl, rfl⟩, fun _ => rfl, commit_none_trace s, rfl, rfl,
      rfl⟩⟩

/-! The step. -/

/-- Settles O21: the step is an edge with the listed cycle, and taking the cycle off the list leaves the event word and the
registers as they are. -/
theorem stepRunsDecodedOperation : Obligations.StepRunsDecodedOperation :=
  fun _ _ _ _ hinputs hsel => (step_of_inputs hinputs).trans (clockEdge_of_decode hsel)

theorem step_of_inputs_nil {s : State} (h : s.inputs = []) : step s = .refused .endOfRun := by
  simp only [step, h]

/-- An edge never refuses: it gives a next state or faults. -/
theorem clockEdge_ne_refused (P : Params) (c : InputCycle) (s : State) (r : Refusal) :
    clockEdge P c s ≠ .refused r := by
  intro h
  rcases clockEdge_cases P c s with ⟨t, ht⟩ | ⟨-, -, -, -, hfault⟩
  · cases ht.clockEdge_eq.symm.trans h
  · cases hfault.symm.trans h

/-- Settles O22: with a cycle listed the step is an edge, and an edge never refuses. -/
theorem stepWithoutInputsEndsRun : Obligations.StepWithoutInputsEndsRun := by
  refine fun s => ⟨fun h => ?_, step_of_inputs_nil⟩
  cases hinputs : s.inputs with
  | nil => rfl
  | cons c cs => exact absurd ((step_of_inputs hinputs).symm.trans h) (clockEdge_ne_refused _ _ _ _)

/-! The output ports. -/

/-- Below `CAP` the read port shows the buffer's entry (R52). -/
theorem readPort_of_lt {P : Params} {a : Byte} (s : State) (h : a.toNat < P.cap) :
    s.readPort P a = s.bufRead a.toNat := if_pos h

/-- Settles O50: the pulses and `ok_len` are registers, and every read address is below this hardware's `CAP = 256`. -/
theorem outputPortsShowState : Obligations.OutputPortsShowState :=
  fun s a => ⟨rfl, rfl, rfl, rfl, readPort_of_lt s a.isLt⟩

end Sys2Proof.Machine
end

section
/-!
The two ways to say what an edge does agree: the operation map of R78, by `EdgeStep`, and the cycle step of R103 with CONSUME
of R105 and the byte step of R100 (40_transition_framework.md sections 1 and 3).
-/

namespace Sys2Proof.Machine

/-! The cycle step, branch by branch (R103). -/

theorem cycleStep_reset (P : Params) {c : InputCycle} (s : State) (hrst : c.rst = true) :
    cycleStep P c s = .next s.resetEdge := by
  simp only [cycleStep, hrst, if_true]

theorem cycleStep_recover (P : Params) {c : InputCycle} {s : State} (hrst : c.rst = false) (hp : 5 ≤ s.phase.toNat) :
    cycleStep P c s = .next s.recover := by
  simp [cycleStep, hrst, (ofCode_eq_none _).mpr hp]

theorem cycleStep_idle (P : Params) {c : InputCycle} {s : State} (hrst : c.rst = false) (hp : s.phase.toNat < 5)
    (hv : c.inValid = false) : cycleStep P c s = .next s.idleEdge := by
  obtain ⟨p, hp⟩ := exists_code_of_lt_five hp
  simp [cycleStep, hrst, hv, hp]

theorem cycleStep_consume (P : Params) {c : InputCycle} {s : State} {p : Phase} (hrst : c.rst = false)
    (hv : c.inValid = true) (hp : s.phase = p.code) : cycleStep P c s = consume P p c.inData s := by
  simp [cycleStep, hrst, hv, hp]

/-- An edge that consumes a byte commits the event of the byte step (R105). -/
theorem cycleStep_of_byteStep {P : Params} {c : InputCycle} {s t : State} {p : Phase} {ev : Event} (hrst : c.rst = false)
    (hv : c.inValid = true) (hp : s.phase = p.code) (hbyte : byteStep P p s c.inData = .ok (t, ev)) :
    cycleStep P c s = .next (t.commit ev) := by
  simp only [cycleStep_consume P hrst hv hp, consume, hbyte]

/-- Where the operation map gives a next state, so does the cycle step, and the same one. -/
theorem EdgeStep.countEdge_cycleStep {P : Params} {c : InputCycle} {s t : State} (h : EdgeStep P c s t) :
    countEdge (cycleStep P c s) = .next t := by
  cases h with
  | reset hrst => exact congrArg countEdge (cycleStep_reset P s hrst)
  | recover hrst hp => exact congrArg countEdge (cycleStep_recover P hrst hp)
  | idle hrst hp hv => exact congrArg countEdge (cycleStep_idle P hrst hp hv)
  | startDetect hrst hv hp hb | lenAccept hrst hv hp hb | ckMatch hrst hv hp hb | endOk hrst hv hp hb =>
    exact congrArg countEdge (cycleStep_of_byteStep hrst hv hp (if_pos hb))
  | noise hrst hv hp hb | ckMismatch hrst hv hp hb | endBad hrst hv hp hb =>
    exact congrArg countEdge (cycleStep_of_byteStep hrst hv hp (if_neg hb))
  | lenReject hrst hv hp hb =>
    have hlen : ¬ (0 < c.inData.toNat ∧ c.inData.toNat < P.cap) := by omega
    exact congrArg countEdge (cycleStep_of_byteStep hrst hv hp (if_neg hlen))
  | payNext hrst hv hp hb =>
    have hroom : ¬ ¬ s.cnt.toNat < s.exp.toNat := by omega
    exact congrArg countEdge (cycleStep_of_byteStep hrst hv hp ((if_neg hroom).trans (if_pos hb)))
  | payLast hrst hv hp hb =>
    have hroom : ¬ ¬ s.cnt.toNat < s.exp.toNat := by omega
    exact congrArg countEdge (cycleStep_of_byteStep hrst hv hp ((if_neg hroom).trans (if_neg hb.not_lt)))

/-- The byte step raises the fault for an AwaitPayload byte with `cnt >= exp` (R15, R100). -/
theorem cycleStep_payloadBound {P : Params} {c : InputCycle} {s : State} (hrst : c.rst = false) (hv : c.inValid = true)
    (hp : s.phase = Phase.code .awaitPayload) (hfull : ¬ s.cnt.toNat < s.exp.toNat) :
    cycleStep P c s = .fault .payloadBound := by
  have hbyte : byteStep P .awaitPayload s c.inData = .error .payloadBound := if_pos hfull
  simp only [cycleStep_consume P hrst hv hp, consume, hbyte]

/-- Settles O20: operation by operation where the edge gives a next state; and both fault on a byte consumed in AwaitPayload
with `cnt >= exp`. -/
theorem operationMapAgreesWithCycleStep : Obligations.OperationMapAgreesWithCycleStep := by
  intro P c s
  rcases clockEdge_cases P c s with ⟨t, ht⟩ | ⟨hrst, hv, hp, hfull, hfault⟩
  · exact ht.clockEdge_eq.trans ht.countEdge_cycleStep.symm
  · rw [hfault, cycleStep_payloadBound hrst hv hp hfull.not_gt]
    rfl

end Sys2Proof.Machine
end

section
/-!
What an edge signals (40_transition_framework.md R102, R105, R109, R112; 60_exceptions.md R200, R205): the pulses and the
trace agree, and a signalling edge leads to AwaitStart, where no byte signals.
-/

namespace Sys2Proof.Machine

/-- The three cases of what an edge signals: a success, one error of the kind its phase names, or nothing. -/
theorem EdgeStep.signal_cases {P : Params} {c : InputCycle} {s t : State} (h : EdgeStep P c s t) :
    (t.okR = true ∧ t.errR = false ∧ s.phase = Phase.code .awaitEnd ∧ c.presents P.endMarker ∧
      t.trace = s.trace ++ [.success s.edge t.exp (t.payload t.exp.toNat)]) ∨
    (t.okR = false ∧ t.errR = true ∧ ∃ k, t.trace = s.trace ++ [.error s.edge k] ∧
      (k = .eLen ↔ s.phase = Phase.code .awaitLength) ∧ (k = .eChk ↔ s.phase = Phase.code .awaitChecksum) ∧
      (k = .eEnd ↔ s.phase = Phase.code .awaitEnd)) ∨
    (t.okR = false ∧ t.errR = false ∧ t.trace = s.trace) := by
  cases h with
  | endOk hrst hv hp hb => exact .inl ⟨rfl, rfl, hp, ⟨hrst, hv, hb⟩, rfl⟩
  | lenReject _ _ hp _ => exact .inr (.inl ⟨rfl, rfl, .eLen, rfl, by rw [hp]; decide⟩)
  | ckMismatch _ _ hp _ => exact .inr (.inl ⟨rfl, rfl, .eChk, rfl, by rw [hp]; decide⟩)
  | endBad _ _ hp _ => exact .inr (.inl ⟨rfl, rfl, .eEnd, rfl, by rw [hp]; decide⟩)
  | reset _ => exact .inr (.inr ⟨rfl, rfl, rfl⟩)
  | recover | idle | startDetect | noise | lenAccept | payNext | payLast | ckMatch =>
    exact .inr (.inr ⟨rfl, rfl, commit_none_trace _⟩)

/-- Settles O29: operation by operation; END_OK alone commits a success, LEN_REJECT, CK_MISMATCH and END_BAD an error. -/
theorem pulsesMatchTrace : Obligations.PulsesMatchTrace :=
  fun _ _ _ _ h => (clockEdge_next_iff.mp h).signal_cases

/-- A signalling edge goes to AwaitStart (R204). -/
theorem EdgeStep.awaitStart_of_signal {P : Params} {c : InputCycle} {s t : State} (h : EdgeStep P c s t)
    (hsignal : t.okR = true ∨ t.errR = true) : t.phase = Phase.code .awaitStart := by
  cases h with
  | lenReject | ckMismatch | endOk | endBad => rfl
  | _ => exact absurd hsignal (by simp)

/-- No edge from AwaitStart signals: every event belongs to a later phase (R120, R121). -/
theorem EdgeStep.no_signal_of_awaitStart {P : Params} {c : InputCycle} {s t : State} (h : EdgeStep P c s t)
    (hphase : s.phase = Phase.code .awaitStart) : t.okR = false ∧ t.errR = false := by
  rcases h.signal_cases with ⟨-, -, hend, -⟩ | ⟨-, -, k, -, hlen, hchk, hend⟩ | ⟨hok, herr, -⟩
  · exact absurd (hphase.symm.trans hend) (by decide)
  · rw [hphase] at hlen hchk hend
    cases k with
    | eLen => exact absurd (hlen.mp rfl) (by decide)
    | eChk => exact absurd (hchk.mp rfl) (by decide)
    | eEnd => exact absurd (hend.mp rfl) (by decide)
  · exact ⟨hok, herr⟩

/-- Settles O31: the first edge leads to AwaitStart, and from there no edge signals. -/
theorem pulsesAreNeverAdjacent : Obligations.PulsesAreNeverAdjacent :=
  fun _ _ _ _ _ _ hfirst hsecond hsignal =>
    (clockEdge_next_iff.mp hsecond).no_signal_of_awaitStart
      ((clockEdge_next_iff.mp hfirst).awaitStart_of_signal hsignal)

end Sys2Proof.Machine
end

section
/-!
What an edge and a run depend on: the next phase, registers and pulses on the inputs and the control registers alone
(40_transition_framework.md R111), and the notifications also on the buffer, but on no IDLE cycle (R104, R108;
60_exceptions.md R203, R211).
-/

namespace Sys2Proof.Machine

/-! States that agree on the buffer and on the notifications given so far. -/

/-- The two states read the same buffer and have given the same notifications in the same order, at whatever edges (R108). -/
def sameEvents (s s' : State) : Prop :=
  sameBuffer s s' ∧ s'.trace.map Notice.content = s.trace.map Notice.content

theorem sameEvents.refl (s : State) : sameEvents s s := ⟨fun _ => rfl, rfl⟩

/-- Two states that read the same buffer have the same payloads. -/
theorem payload_of_sameBuffer {s s' : State} (h : sameBuffer s s') (n : Nat) : s'.payload n = s.payload n :=
  List.map_congr_left (fun a _ => h a)

/-- An event gives the same notification in either state. -/
theorem noticesOf_content {s s' : State} (h : sameBuffer s s') (ev : Event) :
    (s'.noticesOf ev).map Notice.content = (s.noticesOf ev).map Notice.content := by
  cases ev with
  | none => rfl
  | success len => simp [Notice.content, payload_of_sameBuffer h]
  | error kind => rfl

theorem sameEvents.commit {s s' : State} (h : sameEvents s s') (ev : Event) :
    sameEvents (s.commit ev) (s'.commit ev) := by
  obtain ⟨hbuf, htrace⟩ := h
  refine ⟨hbuf, ?_⟩
  simp only [State.commit_trace, List.map_append, htrace, noticesOf_content hbuf ev]

/-- A byte accepted at the same address keeps the buffers the same. -/
theorem sameEvents.acceptByte {s s' : State} (h : sameEvents s s') (hcnt : s'.cnt = s.cnt) (b : Byte) :
    sameEvents (s.acceptByte b) (s'.acceptByte b) := by
  obtain ⟨hbuf, htrace⟩ := h
  refine ⟨fun a => ?_, htrace⟩
  by_cases ha : a = s.cnt.toNat
  · have hread : (s'.acceptByte b).bufRead s.cnt.toNat = b := hcnt ▸ acceptByte_bufRead_same s' b
    rw [ha, hread, acceptByte_bufRead_same]
  · rw [acceptByte_bufRead_other s b ha, acceptByte_bufRead_other s' b (hcnt.symm ▸ ha), hbuf a]

/-! The dependence of an edge on the state before it. -/

/-- From a state that agrees on `phase`, `exp`, `cnt` and `chk` the edge takes the same way, to the same registers and
pulses; if the buffer and the notifications agree too, they still do after it. -/
theorem EdgeStep.of_sameControl {P : Params} {c : InputCycle} {s s' t : State} (h : EdgeStep P c s t)
    (hctl : sameControl s s') :
    ∃ t', EdgeStep P c s' t' ∧ sameControl t t' ∧ t'.okR = t.okR ∧ t'.errR = t.errR ∧
      (sameEvents s s' → sameEvents t t') := by
  obtain ⟨phase, exp, cnt, chk, buf, okR, errR, powerUp, edge, trace, inputs⟩ := s
  obtain ⟨phase', exp', cnt', chk', buf', okR', errR', powerUp', edge', trace', inputs'⟩ := s'
  obtain ⟨hphase, hexp, hcnt, hchk⟩ := hctl
  cases hphase; cases hexp; cases hcnt; cases hchk
  cases h with
  | reset hrst => exact ⟨_, .reset hrst, ⟨rfl, rfl, rfl, rfl⟩, rfl, rfl, id⟩
  | recover hrst hp => exact ⟨_, .recover hrst hp, ⟨rfl, rfl, rfl, rfl⟩, rfl, rfl, fun hev => hev.commit .none⟩
  | idle hrst hp hv => exact ⟨_, .idle hrst hp hv, ⟨rfl, rfl, rfl, rfl⟩, rfl, rfl, fun hev => hev.commit .none⟩
  | startDetect hrst hv hp hb =>
    exact ⟨_, .startDetect hrst hv hp hb, ⟨rfl, rfl, rfl, rfl⟩, rfl, rfl, fun hev => hev.commit .none⟩
  | noise hrst hv hp hb =>
    exact ⟨_, .noise hrst hv hp hb, ⟨rfl, rfl, rfl, rfl⟩, rfl, rfl, fun hev => hev.commit .none⟩
  | lenReject hrst hv hp hb =>
    exact ⟨_, .lenReject hrst hv hp hb, ⟨rfl, rfl, rfl, rfl⟩, rfl, rfl, fun hev => hev.commit (.error .eLen)⟩
  | lenAccept hrst hv hp hb =>
    exact ⟨_, .lenAccept hrst hv hp hb, ⟨rfl, rfl, rfl, rfl⟩, rfl, rfl, fun hev => hev.commit .none⟩
  | payNext hrst hv hp hb =>
    exact ⟨_, .payNext hrst hv hp hb, ⟨rfl, rfl, rfl, rfl⟩, rfl, rfl, fun hev => (hev.acceptByte rfl _).commit .none⟩
  | payLast hrst hv hp hb =>
    exact ⟨_, .payLast hrst hv hp hb, ⟨rfl, rfl, rfl, rfl⟩, rfl, rfl, fun hev => (hev.acceptByte rfl _).commit .none⟩
  | ckMatch hrst hv hp hb =>
    exact ⟨_, .ckMatch hrst hv hp hb, ⟨rfl, rfl, rfl, rfl⟩, rfl, rfl, fun hev => hev.commit .none⟩
  | ckMismatch hrst hv hp hb =>
    exact ⟨_, .ckMismatch hrst hv hp hb, ⟨rfl, rfl, rfl, rfl⟩, rfl, rfl, fun hev => hev.commit (.error .eChk)⟩
  | endOk hrst hv hp hb =>
    exact ⟨_, .endOk hrst hv hp hb, ⟨rfl, rfl, rfl, rfl⟩, rfl, rfl, fun hev => hev.commit (.success _)⟩
  | endBad hrst hv hp hb =>
    exact ⟨_, .endBad hrst hv hp hb, ⟨rfl, rfl, rfl, rfl⟩, rfl, rfl, fun hev => hev.commit (.error .eEnd)⟩

/-- Settles O37: the operation is selected, and its writes to registers and pulses are computed, from the inputs and the
control registers. -/
theorem noLookaheadNoHistory : Obligations.NoLookaheadNoHistory := by
  intro P c s s' t hctl h
  obtain ⟨t', ht', hctl', hok, herr, -⟩ := (clockEdge_next_iff.mp h).of_sameControl hctl
  have ⟨_, hexp, _⟩ := hctl'
  exact ⟨t', ht'.clockEdge_eq, hctl', hok, herr, hexp⟩

/-! IDLE cycles. -/

/-- A state after `n` more edges that signal nothing and write nothing. -/
def State.idledFor (s : State) (n : Nat) : State := { s with okR := false, errR := false, edge := s.edge + n }

theorem State.idleEdge_afterEdge_eq (s : State) : s.idleEdge.afterEdge = s.idledFor 1 := by
  simp [State.idledFor, State.commit, State.afterEdge]

theorem State.idledFor_idledFor (s : State) (m n : Nat) : (s.idledFor m).idledFor n = s.idledFor (n + m) := by
  simp [State.idledFor, Nat.add_comm, Nat.add_left_comm]

/-- An IDLE edge ends the pulses and is counted, and that is all (R104). -/
theorem clockEdge_idle (P : Params) {c : InputCycle} {s : State} (hrst : c.rst = false) (hv : c.inValid = false)
    (hp : s.legalPhase) : clockEdge P c s = .next (s.idledFor 1) :=
  s.idleEdge_afterEdge_eq ▸ (EdgeStep.idle hrst hp hv).clockEdge_eq

/-- One IDLE cycle and any number more. -/
theorem run_idleCycles (P : Params) (d : Byte) (datas : List Byte) {s : State} (hp : s.legalPhase) :
    run P (idleCycles (d :: datas)) s = .next (s.idledFor (datas.length + 1)) := by
  have hfirst {e : Byte} {u : State} (hu : u.legalPhase) :
      clockEdge P { rst := false, inValid := false, inData := e } u = .next (u.idledFor 1) :=
    clockEdge_idle P rfl rfl hu
  induction datas generalizing d s with
  | nil => exact run_cons (hfirst hp)
  | cons e es ih =>
    calc run P (idleCycles (d :: e :: es)) s = run P (idleCycles (e :: es)) (s.idledFor 1) := run_cons (hfirst hp)
      _ = .next ((s.idledFor 1).idledFor (es.length + 1)) := ih e hp
      _ = .next (s.idledFor ((e :: es).length + 1)) := by rw [State.idledFor_idledFor]; rfl

/-- Settles O39: by induction on the cycles, each an IDLE edge in the same legal phase. -/
theorem idleCyclesKeepAttemptPending : Obligations.IdleCyclesKeepAttemptPending := by
  intro P datas s hp hne
  obtain ⟨d, ds, rfl⟩ := List.exists_cons_of_ne_nil hne
  exact ⟨_, run_idleCycles P d ds hp, ⟨rfl, rfl, rfl, rfl⟩, rfl, rfl, fun _ => rfl, rfl⟩

/-! Runs without their IDLE cycles. -/

/-- Every edge from a legal phase leads to a legal phase (R21). -/
theorem EdgeStep.keeps_legalPhase {P : Params} {c : InputCycle} {s t : State} (h : EdgeStep P c s t)
    (hp : s.legalPhase) : t.legalPhase := by
  cases h with
  | idle => exact hp
  | reset | recover | noise | lenReject | ckMismatch | endOk | endBad => exact code_lt_five .awaitStart
  | startDetect => exact code_lt_five .awaitLength
  | lenAccept | payNext => exact code_lt_five .awaitPayload
  | payLast => exact code_lt_five .awaitChecksum
  | ckMatch => exact code_lt_five .awaitEnd

theorem withoutIdle_cons_idle {c : InputCycle} (cs : List InputCycle) (hrst : c.rst = false) (hv : c.inValid = false) :
    withoutIdle (c :: cs) = withoutIdle cs := by
  simp [withoutIdle, hrst, hv]

theorem withoutIdle_cons_busy {c : InputCycle} (cs : List InputCycle) (h : ¬ (c.rst = false ∧ c.inValid = false)) :
    withoutIdle (c :: cs) = c :: withoutIdle cs := by
  have hbusy : (c.rst || c.inValid) = true := by
    by_contra hidle
    exact h (by simpa using hidle)
  simp [withoutIdle, hbusy]

/-- A run and the same run without its IDLE cycles, from states that agree but for pulses and edge numbers, lead to states
that agree likewise. -/
theorem run_withoutIdle {P : Params} {cs : List InputCycle} {s s' t : State} (hp : s.legalPhase)
    (hctl : sameControl s s') (hev : sameEvents s s') (h : run P cs s = .next t) :
    ∃ u, run P (withoutIdle cs) s' = .next u ∧ sameControl t u ∧ sameEvents t u := by
  induction cs generalizing s s' with
  | nil => cases h; exact ⟨s', rfl, hctl, hev⟩
  | cons c cs ih =>
    obtain ⟨v, hv, hrun⟩ := run_cons_next h
    by_cases hidle : c.rst = false ∧ c.inValid = false
    · obtain ⟨hrst, hvalid⟩ := hidle
      cases hv.clockEdge_eq.symm.trans (clockEdge_idle P hrst hvalid hp)
      rw [withoutIdle_cons_idle cs hrst hvalid]
      exact ih (s := s.idledFor 1) hp hctl hev hrun
    · obtain ⟨v', hv', hctl', -, -, hev'⟩ := hv.of_sameControl hctl
      rw [withoutIdle_cons_busy cs hidle, run_cons hv'.clockEdge_eq]
      exact ih (hv.keeps_legalPhase hp) hctl' (hev' hev) hrun

/-- Settles O41: from one state to itself, leaving IDLE cycles out of the second run. -/
theorem idleCyclesDoNotChangeEvents : Obligations.IdleCyclesDoNotChangeEvents := by
  intro P cs s t hp h
  obtain ⟨u, hu, hctl, hbuf, htrace⟩ := run_withoutIdle hp ⟨rfl, rfl, rfl, rfl⟩ (.refl s) h
  exact ⟨u, hu, hctl, hbuf, htrace⟩

end Sys2Proof.Machine
end

section
/-!
Steps over the list of input cycles, and the calls that list them (40_transition_framework.md R108; 60_exceptions.md R214,
P3): cycles listed behind change no step, and calls one after another are one call with all their cycles.
-/

namespace Sys2Proof.Machine

/-! Outcomes one after another. -/

/-- Go on with `k` from a next state; a fault or a refusal stays. -/
def continueWith (o : Host.Outcome State Fault Refusal) (k : State → Host.Outcome State Fault Refusal) :
    Host.Outcome State Fault Refusal :=
  match o with
  | .next s => k s
  | .fault f => .fault f
  | .refused r => .refused r

@[simp] theorem continueWith_next (s : State) (k : State → Host.Outcome State Fault Refusal) :
    continueWith (.next s) k = k s := rfl
@[simp] theorem continueWith_fault (f : Fault) (k : State → Host.Outcome State Fault Refusal) :
    continueWith (.fault f) k = .fault f := rfl
@[simp] theorem continueWith_refused (r : Refusal) (k : State → Host.Outcome State Fault Refusal) :
    continueWith (.refused r) k = .refused r := rfl

theorem continueWith_assoc (o : Host.Outcome State Fault Refusal) (k l : State → Host.Outcome State Fault Refusal) :
    continueWith (continueWith o k) l = continueWith o (fun s => continueWith (k s) l) := by
  cases o <;> rfl

theorem steps_succ (n : Nat) (s : State) : steps (n + 1) s = continueWith (step s) (steps n) := by
  simp only [steps]
  cases step s <;> rfl

theorem feedChunks_cons (cs : List InputCycle) (rest : List (List InputCycle)) (s : State) :
    feedChunks (cs :: rest) s = continueWith (feed cs s) (feedChunks rest) := by
  simp only [feedChunks]
  cases feed cs s <;> rfl

theorem run_cons_eq (P : Params) (c : InputCycle) (cs : List InputCycle) (s : State) :
    run P (c :: cs) s = continueWith (clockEdge P c s) (run P cs) := by
  simp only [run]
  cases clockEdge P c s <;> rfl

theorem run_append (P : Params) (cs ds : List InputCycle) (s : State) :
    run P (cs ++ ds) s = continueWith (run P cs s) (run P ds) := by
  induction cs generalizing s with
  | nil => rfl
  | cons c cs ih => rw [List.cons_append, run_cons_eq, run_cons_eq, continueWith_assoc, funext ih]

theorem steps_add (m n : Nat) (s : State) : steps (m + n) s = continueWith (steps m s) (steps n) := by
  induction m generalizing s with
  | zero => rw [Nat.zero_add]; rfl
  | succ m ih => rw [Nat.succ_add, steps_succ, steps_succ, continueWith_assoc, funext ih]

/-! Cycles listed behind. -/

/-- `s` with the cycles `cs` listed behind those still to come. -/
def State.listing (s : State) (cs : List InputCycle) : State := { s with inputs := s.inputs ++ cs }

@[simp] theorem State.listing_nil (s : State) : s.listing [] = s := by simp [State.listing]

theorem State.listing_append (s : State) (cs ds : List InputCycle) :
    s.listing (cs ++ ds) = (s.listing cs).listing ds := by
  simp [State.listing]

theorem listedBehind_next (cs : List InputCycle) (t : State) : listedBehind cs (.next t) = .next (t.listing cs) := rfl

theorem feed_eq (cs : List InputCycle) (s : State) : feed cs s = steps cs.length (s.listing cs) := rfl

/-- An edge leaves the cycles still to come listed. -/
theorem EdgeStep.inputs_eq {P : Params} {c : InputCycle} {s t : State} (h : EdgeStep P c s t) :
    t.inputs = s.inputs := by
  cases h <;> rfl

/-- An edge does the same whatever is listed behind. -/
theorem clockEdge_listing (P : Params) (c : InputCycle) (s : State) (cs : List InputCycle) :
    clockEdge P c (s.listing cs) = listedBehind cs (clockEdge P c s) := by
  rcases clockEdge_cases P c s with ⟨t, ht⟩ | ⟨hrst, hv, hp, hfull, hfault⟩
  · have hlisted : t.listing cs = { t with inputs := s.inputs ++ cs } := by simp only [State.listing, ht.inputs_eq]
    rw [ht.clockEdge_eq, listedBehind_next, hlisted]
    exact (ht.withInputs _).clockEdge_eq
  · rw [hfault]
    exact clockEdge_fault_iff.mpr ⟨rfl, hrst, hv, hp, hfull.not_gt⟩

/-- A step with a cycle to take does the same whatever is listed behind. -/
theorem step_listing {s : State} (cs : List InputCycle) (h : s.inputs ≠ []) :
    step (s.listing cs) = listedBehind cs (step s) := by
  obtain ⟨d, ds, hinputs⟩ := List.exists_cons_of_ne_nil h
  have hlisted : (s.listing cs).inputs = d :: (ds ++ cs) := by simp [State.listing, hinputs]
  rw [step_of_inputs hlisted, step_of_inputs hinputs]
  exact clockEdge_listing Config.hw d { s with inputs := ds } cs

/-- A step takes one cycle off the list. -/
theorem step_inputs_length {s t : State} (h : step s = .next t) : s.inputs.length = t.inputs.length + 1 := by
  obtain ⟨c, cs, hinputs, hedge⟩ := step_next h
  rw [hedge.inputs_eq, hinputs, List.length_cons]

/-- Steps with as many cycles to take do the same whatever is listed behind. -/
theorem steps_listing {n : Nat} {s : State} (cs : List InputCycle) (h : n ≤ s.inputs.length) :
    steps n (s.listing cs) = listedBehind cs (steps n s) := by
  induction n generalizing s with
  | zero => rfl
  | succ n ih =>
    rw [steps_succ, steps_succ, step_listing cs (List.length_pos_iff.mp (Nat.zero_lt_of_lt h))]
    cases hstep : step s with
    | next t =>
      have hlen := step_inputs_length hstep
      exact ih (by omega)
    | fault f => rfl
    | refused r => rfl

/-! Calls one after another. -/

theorem continueWith_listedBehind (cs : List InputCycle) (o : Host.Outcome State Fault Refusal) (n : Nat) :
    continueWith (listedBehind cs o) (steps n) = continueWith o (fun t => steps n (t.listing cs)) := by
  cases o <;> rfl

/-- One call with two chunks is a call with the first and then a call with the second. -/
theorem feed_append (cs ds : List InputCycle) (s : State) : feed (cs ++ ds) s = continueWith (feed cs s) (feed ds) :=
  have henough : cs.length ≤ (s.listing cs).inputs.length := by simp [State.listing]
  calc feed (cs ++ ds) s
    _ = continueWith (steps cs.length ((s.listing cs).listing ds)) (steps ds.length) := by
      rw [feed_eq, List.length_append, steps_add, State.listing_append]
    _ = continueWith (listedBehind ds (feed cs s)) (steps ds.length) := by rw [steps_listing ds henough, feed_eq]
    _ = continueWith (feed cs s) (feed ds) := continueWith_listedBehind ds _ _

theorem feed_nil (s : State) : feed [] s = .next s := by
  rw [feed_eq, State.listing_nil]
  rfl

/-- Calls with the chunks one after another are one call with the whole stream. -/
theorem feedChunks_eq_feed_flatten (chunks : List (List InputCycle)) (s : State) :
    feedChunks chunks s = feed chunks.flatten s := by
  induction chunks generalizing s with
  | nil => exact (feed_nil s).symm
  | cons cs rest ih => rw [feedChunks_cons, funext ih, List.flatten_cons, feed_append]

theorem feed_singleton {s : State} (c : InputCycle) (h : s.inputs = []) : feed [c] s = clockEdge Config.hw c s := by
  have hlisted : (s.listing [c]).inputs = [c] := by simp [State.listing, h]
  have hstate : ({ s.listing [c] with inputs := [] } : State) = s := by simp only [State.listing, ← h]
  rw [feed_eq, List.length_singleton, steps_succ, step_of_inputs hlisted, hstate]
  cases clockEdge Config.hw c s <;> rfl

/-- With nothing listed before, a call is the run of its cycles. -/
theorem feed_eq_run {s : State} (cs : List InputCycle) (h : s.inputs = []) : feed cs s = run Config.hw cs s := by
  induction cs generalizing s with
  | nil => exact feed_nil s
  | cons c cs ih =>
    rw [← List.singleton_append, feed_append, feed_singleton c h, List.singleton_append, run_cons_eq]
    cases hedge : clockEdge Config.hw c s with
    | next t => exact ih ((clockEdge_next_iff.mp hedge).inputs_eq.trans h)
    | fault f => rfl
    | refused r => rfl

end Sys2Proof.Machine
end

section
/-!
The run of a frame's bytes (30_encoding.md R71; 60_exceptions.md R202), part by part: START_MARKER and LENGTH, the payload,
CHECKSUM and END_MARKER; and from it that a well-formed frame gives its success however it is split into chunks (R108, R214).
-/

namespace Sys2Proof.Machine

theorem runBytes_append (P : Params) (bs ds : List Byte) (s : State) :
    runBytes P (bs ++ ds) s = continueWith (runBytes P bs s) (runBytes P ds) := by
  rw [runBytes, List.map_append]
  exact run_append ..

/-- Bytes after a run that gives a next state run from there. -/
theorem runBytes_append_of_next {P : Params} {bs : List Byte} {s t : State} (h : runBytes P bs s = .next t)
    (ds : List Byte) : runBytes P (bs ++ ds) s = runBytes P ds t := by
  rw [runBytes_append, h, continueWith_next]

theorem runBytes_singleton {P : Params} {b : Byte} {s t : State} (h : EdgeStep P (consuming b) s t) :
    runBytes P [b] s = .next t :=
  run_cons h.clockEdge_eq

theorem runBytes_cons {P : Params} {b : Byte} {s t : State} (h : EdgeStep P (consuming b) s t) (bs : List Byte) :
    runBytes P (b :: bs) s = runBytes P bs t :=
  run_cons h.clockEdge_eq

/-! The payload. -/

/-- `t` stands at the checksum of a frame whose `n` bytes so far were consumed from `s`, with payload `ps` received. -/
structure PayloadReceived (s t : State) (n : Nat) (ps : List Byte) : Prop where
  phase_eq : t.phase = Phase.code .awaitChecksum
  exp_eq : t.exp.toNat = ps.length
  payload_eq : t.payload t.exp.toNat = ps
  chk_eq : t.chk = xorFold ps
  edge_eq : t.edge = s.edge + n
  trace_eq : t.trace = s.trace

/-- The same, seen from the state `k` bytes earlier. -/
theorem PayloadReceived.from_earlier {s u t : State} {n : Nat} {ps : List Byte} (h : PayloadReceived u t n ps) {k : Nat}
    (hedge : u.edge = s.edge + k) (htrace : u.trace = s.trace) : PayloadReceived s t (n + k) ps :=
  { h with
    edge_eq := by rw [h.edge_eq, hedge, Nat.add_assoc, Nat.add_comm k n]
    trace_eq := h.trace_eq.trans htrace }

/-- The last payload byte completes the payload (R141). -/
theorem payloadReceived_payLast {s : State} (b : Byte) (hopen : s.attemptOpen) (hlast : s.cnt.toNat + 1 = s.exp.toNat) :
    PayloadReceived s ((s.payLast b).commit .none).afterEdge 1 (s.payload s.cnt.toNat ++ [b]) := by
  have hpayload : (s.acceptByte b).payload s.exp.toNat = s.payload s.cnt.toNat ++ [b] :=
    hlast ▸ acceptByte_payload_succ s b
  obtain ⟨-, -, hchk⟩ := acceptByte_attemptFull b hopen hlast
  exact
    { phase_eq := rfl
      exp_eq := by simp [← hlast]
      payload_eq := hpayload
      chk_eq := hchk.trans (congrArg xorFold hpayload)
      edge_eq := rfl
      trace_eq := commit_none_trace _ }

/-- In an open attempt, as many bytes as are still to come complete the payload (R140, R141). -/
theorem runBytes_payload (P : Params) {ps : List Byte} {s : State} (hphase : s.phase = Phase.code .awaitPayload)
    (hopen : s.attemptOpen) (hlen : s.cnt.toNat + ps.length = s.exp.toNat) :
    ∃ t, runBytes P ps s = .next t ∧ PayloadReceived s t ps.length (s.payload s.cnt.toNat ++ ps) := by
  induction ps generalizing s with
  | nil =>
    obtain ⟨-, hlt, -⟩ := hopen
    exact absurd hlen hlt.ne
  | cons b bs ih =>
    rw [List.length_cons] at hlen
    by_cases hlast : s.cnt.toNat + 1 = s.exp.toNat
    · obtain rfl : bs = [] := List.length_eq_zero_iff.mp (by omega)
      exact ⟨_, runBytes_singleton (.payLast rfl rfl hphase hlast), payloadReceived_payLast b hopen hlast⟩
    · have ⟨_, hlt, _⟩ := hopen
      have hmore : s.cnt.toNat + 1 < s.exp.toNat := by omega
      have hcnt : (s.cnt + 1).toNat = s.cnt.toNat + 1 := toNat_succ_of_lt hlt
      have hpayload : (s.acceptByte b).payload (s.cnt + 1).toNat ++ bs = s.payload s.cnt.toNat ++ b :: bs := by
        rw [hcnt, acceptByte_payload_succ, List.append_assoc, List.singleton_append]
      obtain ⟨t, ht, hreceived⟩ := ih (s := ((s.payNext b).commit .none).afterEdge) rfl
        (acceptByte_attemptOpen b hopen hmore) (show (s.cnt + 1).toNat + bs.length = s.exp.toNat by omega)
      refine ⟨t, (runBytes_cons (.payNext rfl rfl hphase hmore) bs).trans ht, hpayload ▸ ?_⟩
      exact hreceived.from_earlier rfl (commit_none_trace _)

/-! The frame. -/

/-- The length byte of a legal payload holds its length, for `CAP` is at most 256 (R72, R9). -/
theorem toNat_length {P : Params} {ps : List Byte} (hP : P.legal) (hps : legalLength P ps) :
    (BitVec.ofNat 8 ps.length).toNat = ps.length := by
  obtain ⟨-, hcap⟩ := hP
  obtain ⟨-, hlen⟩ := hps
  rw [BitVec.toNat_ofNat]
  omega

/-- From AwaitStart, START_MARKER and a legal length open an attempt with no byte received (R120, R130). -/
theorem runBytes_startAndLength {P : Params} {s : State} {b : Byte} (hphase : s.phase = Phase.code .awaitStart)
    (hpos : 0 < b.toNat) (hcap : b.toNat < P.cap) :
    ∃ t, runBytes P [P.startMarker, b] s = .next t ∧ t.phase = Phase.code .awaitPayload ∧ t.attemptOpen ∧ t.exp = b ∧
      t.cnt = 0 ∧ t.edge = s.edge + 2 ∧ t.trace = s.trace := by
  have hstart : EdgeStep P (consuming P.startMarker) s (s.startDetect.commit .none).afterEdge :=
    .startDetect rfl rfl hphase rfl
  have hlength := EdgeStep.lenAccept (P := P) (c := consuming b) (s := (s.startDetect.commit .none).afterEdge)
    rfl rfl rfl ⟨hpos, hcap⟩
  exact ⟨_, (runBytes_cons hstart _).trans (runBytes_singleton hlength), rfl, ⟨hpos, hpos, rfl⟩, rfl, rfl, rfl,
    by simp⟩

/-- From AwaitStart, START_MARKER, the length and the payload lead to the checksum, with the payload received. -/
theorem runBytes_upToPayload {P : Params} (hP : P.legal) {s : State} {ps : List Byte}
    (hphase : s.phase = Phase.code .awaitStart) (hps : legalLength P ps) :
    ∃ t, runBytes P (P.startMarker :: BitVec.ofNat 8 ps.length :: ps) s = .next t ∧
      PayloadReceived s t (ps.length + 2) ps := by
  have hlen := toNat_length hP hps
  obtain ⟨hpos, hcap⟩ := hps
  obtain ⟨u, hu, huphase, hopen, hexp, hcnt, hedge, htrace⟩ :=
    runBytes_startAndLength hphase (hlen.symm ▸ hpos) (hlen.symm ▸ hcap)
  obtain ⟨t, ht, hreceived⟩ := runBytes_payload P (ps := ps) huphase hopen (by simp [hcnt, hexp, hlen])
  rw [hcnt] at hreceived
  exact ⟨t, (runBytes_append_of_next hu ps).trans ht, hreceived.from_earlier hedge htrace⟩

/-- After a well-formed frame consumed from `s`: back in AwaitStart with `ok` pulsing, the payload at the ports, and its
success noted at the edge of END_MARKER. -/
structure FrameReceived (s t : State) (ps : List Byte) : Prop where
  phase_eq : t.phase = Phase.code .awaitStart
  okR_eq : t.okR = true
  errR_eq : t.errR = false
  exp_eq : t.exp.toNat = ps.length
  payload_eq : t.payload ps.length = ps
  edge_eq : t.edge = s.edge + (ps.length + 4)
  trace_eq : t.trace = s.trace ++ [.success (s.edge + (ps.length + 3)) (BitVec.ofNat 8 ps.length) ps]

/-- With the payload received, its checksum and END_MARKER end the frame in a success (R150, R160). -/
theorem runBytes_checksumAndEnd (P : Params) {s t : State} {ps : List Byte}
    (h : PayloadReceived s t (ps.length + 2) ps) :
    ∃ u, runBytes P [xorFold ps, P.endMarker] t = .next u ∧ FrameReceived s u ps := by
  have hmatch : EdgeStep P (consuming (xorFold ps)) t (t.ckMatch.commit .none).afterEdge :=
    .ckMatch rfl rfl h.phase_eq h.chk_eq.symm
  have hend := EdgeStep.endOk (P := P) (c := consuming P.endMarker) (s := (t.ckMatch.commit .none).afterEdge)
    rfl rfl rfl rfl
  have hexp : t.exp = BitVec.ofNat 8 ps.length := by
    rw [← h.exp_eq, BitVec.ofNat_toNat, BitVec.setWidth_eq]
  refine ⟨_, (runBytes_cons hmatch _).trans (runBytes_singleton hend), ?_⟩
  exact
    { phase_eq := rfl
      okR_eq := rfl
      errR_eq := rfl
      exp_eq := h.exp_eq
      payload_eq := (congrArg t.payload h.exp_eq.symm).trans h.payload_eq
      edge_eq := by simp [h.edge_eq]; omega
      trace_eq := by
        show (t.trace ++ []) ++ [.success (t.edge + 1) t.exp (t.payload t.exp.toNat)] = _
        rw [List.append_nil, h.payload_eq, hexp, h.trace_eq, h.edge_eq]
        rfl }

/-- From AwaitStart a well-formed frame gives its success (R202), in every legal build. -/
theorem runBytes_frameBytes {P : Params} (hP : P.legal) {s : State} {ps : List Byte}
    (hphase : s.phase = Phase.code .awaitStart) (hps : legalLength P ps) :
    ∃ t, runBytes P (frameBytes P ps) s = .next t ∧ FrameReceived s t ps := by
  obtain ⟨t, ht, hpayload⟩ := runBytes_upToPayload hP hphase hps
  obtain ⟨u, hu, hframe⟩ := runBytes_checksumAndEnd P hpayload
  exact ⟨u, (runBytes_append_of_next ht _).trans hu, hframe⟩

/-- A run leaves the listed cycles listed. -/
theorem run_inputs_eq {P : Params} {cs : List InputCycle} {s t : State} (h : run P cs s = .next t) :
    t.inputs = s.inputs :=
  run_keeps (I := fun u => u.inputs = s.inputs) (fun hedge hu => hedge.inputs_eq.trans hu) rfl h

/-- With nothing listed before, calls with a stream's bytes in chunks are the run of the stream. -/
theorem feedChunks_byteCycles {s : State} (chunks : List (List Byte)) (h : s.inputs = []) :
    feedChunks (chunks.map byteCycles) s = runBytes Config.hw chunks.flatten s :=
  calc feedChunks (chunks.map byteCycles) s = feed (chunks.map byteCycles).flatten s := feedChunks_eq_feed_flatten ..
    _ = feed (byteCycles chunks.flatten) s := by rw [byteCycles, List.map_flatten]; rfl
    _ = runBytes Config.hw chunks.flatten s := feed_eq_run _ h

/-- Settles O40: cycles listed behind change no step; calls join by induction on the chunks; so the chunks of a frame are
one run of the frame. -/
theorem chunkBoundariesDoNotMatter : Obligations.ChunkBoundariesDoNotMatter := by
  refine ⟨fun n s cs h => steps_listing cs h, feedChunks_eq_feed_flatten, ?_⟩
  intro s ps chunks hphase hinputs hps hsplit
  obtain ⟨t, ht, hframe⟩ := runBytes_frameBytes (by decide) hphase hps
  refine ⟨t, ?_, hframe.phase_eq, (run_inputs_eq ht).trans hinputs, hframe.okR_eq, hframe.errR_eq, hframe.exp_eq,
    hframe.trace_eq⟩
  rw [feedChunks_byteCycles chunks hinputs, hsplit, ht]

end Sys2Proof.Machine
end

section
/-!
AwaitStart (41_await_start.md R120, R121; 60_exceptions.md R207): when START_DETECT and NOISE are selected and what they
write, and that an attempt opens nowhere else.
-/

namespace Sys2Proof.Machine

/-! The way into AwaitLength. -/

/-- An edge that ends in AwaitLength either idled there or ran START_DETECT: every other operation names another next phase
(R78). -/
theorem EdgeStep.idle_or_startMarker_of_awaitLength {P : Params} {c : InputCycle} {s t : State} (h : EdgeStep P c s t)
    (hphase : t.phase = Phase.code .awaitLength) :
    (s.phase = Phase.code .awaitLength ∧ c.rst = false ∧ c.inValid = false) ∨
      (s.phase = Phase.code .awaitStart ∧ c.presents P.startMarker) := by
  cases h with
  | idle hrst _ hv => exact .inl ⟨hphase, hrst, hv⟩
  | startDetect hrst hv hp hb => exact .inr ⟨hp, hrst, hv, hb⟩
  | reset | recover | noise | lenReject | ckMismatch | endOk | endBad =>
    cases phase_code_injective (p := .awaitStart) hphase
  | lenAccept | payNext => cases phase_code_injective (p := .awaitPayload) hphase
  | payLast => cases phase_code_injective (p := .awaitChecksum) hphase
  | ckMatch => cases phase_code_injective (p := .awaitEnd) hphase

/-- Settles O36: operation by operation, by the next phase; IDLE keeps AwaitLength and START_DETECT alone enters it. -/
theorem onlyStartMarkerInAwaitStartOpensAttempt : Obligations.OnlyStartMarkerInAwaitStartOpensAttempt :=
  fun _ _ _ _ h hphase => (clockEdge_next_iff.mp h).idle_or_startMarker_of_awaitLength hphase

/-! START_DETECT and NOISE. -/

/-- An operation whose event word consumes byte `b` in phase code `p` is selected exactly when the inputs present `b`, the
phase register holds `p`, and R78 admits the operation. -/
theorem selectedAt_iff_presents {P : Params} {c : InputCycle} {s : State} {i : Instr} {p : PhaseCode} {b : Byte}
    (henc : encode P i = eventWord false true p b) :
    selectedAt P c s i ↔ (c.presents b ∧ s.phase = p) ∧ i.wellFormed P = true ∧ i.enabled s.regs = true :=
  (selectedAt_iff_of_encode henc).trans <| and_congr_left' <|
    ⟨fun ⟨hrst, hv, hphase, hb⟩ => ⟨⟨hrst.symm, hv.symm, hb.symm⟩, hphase.symm⟩,
      fun ⟨⟨hrst, hv, hb⟩, hphase⟩ => ⟨hrst.symm, hv.symm, hphase.symm, hb.symm⟩⟩

theorem selectedAt_startDetect_iff {P : Params} {c : InputCycle} {s : State} :
    selectedAt P c s .startDetect ↔ c.presents P.startMarker ∧ s.phase = Phase.code .awaitStart :=
  (selectedAt_iff_presents rfl).trans (and_iff_left ⟨rfl, rfl⟩)

theorem selectedAt_noise_iff {P : Params} {c : InputCycle} {s : State} {b : Byte} :
    selectedAt P c s (.noise b) ↔ c.presents b ∧ s.phase = Phase.code .awaitStart ∧ b ≠ P.startMarker :=
  (selectedAt_iff_presents rfl).trans
    ⟨fun ⟨⟨hpres, hphase⟩, hwf, _⟩ => ⟨hpres, hphase, of_decide_eq_true hwf⟩,
      fun ⟨hpres, hphase, hb⟩ => ⟨⟨hpres, hphase⟩, decide_eq_true hb, rfl⟩⟩

/-- Settles O4: START_DETECT runs ResetAttempt, writes the phase and commits no event. -/
theorem startDetectOpensAttempt : Obligations.StartDetectOpensAttempt :=
  fun s => ⟨fun _ => selectedAt_startDetect_iff, fun _ =>
    ⟨s.startDetect.commit .none, exec_startDetect s, ⟨rfl, rfl, rfl, rfl, rfl, rfl⟩, fun _ => rfl,
      commit_none_trace _, rfl, rfl, rfl⟩⟩

/-- Settles O5: NOISE writes AwaitStart over AwaitStart and commits no event. -/
theorem noiseIsAbsorbed : Obligations.NoiseIsAbsorbed :=
  fun s b => ⟨fun _ => selectedAt_noise_iff, fun _ _ =>
    ⟨s.noise.commit .none, exec_noise s b, ⟨rfl, rfl, rfl, rfl, rfl, rfl⟩, fun _ => rfl, commit_none_trace _, rfl, rfl,
      rfl⟩⟩

end Sys2Proof.Machine
end

section
/-!
AwaitLength (42_await_length.md R130, R131): when LEN_ACCEPT and LEN_REJECT are selected, in every build and on this
hardware, and what they write.
-/

namespace Sys2Proof.Machine

/-! Which edges select them. -/

/-- An operation that consumes byte `b` in phase code `p`, and whose one condition in R78 is `cond`, on the fields of its own
event word, is selected exactly when the inputs present `b`, the phase register holds `p` and `cond` holds. -/
theorem selectedAt_iff_presents_and {P : Params} {c : InputCycle} {s : State} {i : Instr} {p : PhaseCode} {b : Byte}
    {cond : Prop} [Decidable cond] (henc : encode P i = eventWord false true p b)
    (hwf : i.wellFormed P = decide cond) (hen : i.enabled s.regs = true) :
    selectedAt P c s i ↔ c.presents b ∧ s.phase = p ∧ cond := by
  rw [selectedAt_iff_presents henc, hwf, decide_eq_true_iff, and_iff_left hen, and_assoc]

theorem selectedAt_lenAccept_iff {P : Params} {c : InputCycle} {s : State} {b : Byte} :
    selectedAt P c s (.lenAccept b) ↔
      c.presents b ∧ s.phase = Phase.code .awaitLength ∧ 0 < b.toNat ∧ b.toNat < P.cap :=
  selectedAt_iff_presents_and rfl rfl rfl

theorem selectedAt_lenReject_iff {P : Params} {c : InputCycle} {s : State} {b : Byte} :
    selectedAt P c s (.lenReject b) ↔
      c.presents b ∧ s.phase = Phase.code .awaitLength ∧ (b.toNat = 0 ∨ P.cap ≤ b.toNat) :=
  selectedAt_iff_presents_and rfl rfl rfl

/-- With `CAP = 256` the byte `0x00` is the one length outside `0 < b < CAP`: no byte reaches the capacity (R131). -/
theorem lenReject_wellFormed_hw_iff {b : Byte} : (Instr.lenReject b).wellFormed Config.hw = true ↔ b = 0x00 := by
  have hlt : b.toNat < Config.hw.cap := b.isLt
  constructor
  · intro hwf
    have hlen : b.toNat = 0 ∨ Config.hw.cap ≤ b.toNat := of_decide_eq_true hwf
    exact BitVec.eq_of_toNat_eq (hlen.resolve_right (Nat.not_le.mpr hlt))
  · rintro rfl
    rfl

/-- On this hardware LEN_REJECT has the one event word `0x0900`, the word of the byte `0x00` in AwaitLength (R131). -/
theorem selectedAt_lenReject_hw_iff {c : InputCycle} {s : State} {b : Byte} :
    selectedAt Config.hw c s (.lenReject b) ↔ s.eventWordOf c = 0x0900 ∧ b = 0x00 := by
  have hword : encode Config.hw (.lenReject 0x00) = 0x0900 := rfl
  constructor
  · intro hsel
    obtain ⟨henc, hwf, -⟩ := encode_of_decode hsel
    obtain rfl := lenReject_wellFormed_hw_iff.mp hwf
    exact ⟨henc.symm.trans hword, rfl⟩
  · rintro ⟨hev, rfl⟩
    exact decode_of_encode_eq (hword.trans hev.symm) (lenReject_wellFormed_hw_iff.mpr rfl) rfl

/-! LEN_ACCEPT and LEN_REJECT. -/

/-- Settles O6: LEN_ACCEPT writes the length and the phase and commits no event. -/
theorem lenAcceptArmsPayload : Obligations.LenAcceptArmsPayload :=
  fun _ s b => ⟨fun _ => selectedAt_lenAccept_iff, fun _ _ _ =>
    ⟨(s.lenAccept b).commit .none, exec_lenAccept s b, ⟨rfl, rfl, rfl, rfl, rfl, rfl⟩, fun _ => rfl,
      commit_none_trace _, rfl, rfl, rfl⟩⟩

/-- Settles O7: LEN_REJECT runs ResetAttempt, writes AwaitStart and commits `Error(E_LEN)`; by (I-b) of R27 the registers it
clears are clear already. -/
theorem lenRejectSignalsError : Obligations.LenRejectSignalsError := by
  refine fun P s b => ⟨fun _ => selectedAt_lenReject_iff, fun _ => selectedAt_lenReject_hw_iff, fun hphase _ => ?_⟩
  refine ⟨s.lenReject.commit (.error .eLen), exec_lenReject s b, ⟨rfl, rfl, rfl, rfl, rfl, rfl⟩, fun _ => rfl, rfl,
    ⟨rfl, rfl, rfl⟩, fun hinv => ?_⟩
  obtain ⟨hexp, hcnt, hchk⟩ := hinv.in_length hphase
  exact ⟨hexp.symm, hcnt.symm, hchk.symm⟩

end Sys2Proof.Machine
end

section
/-!
AwaitPayload (43_await_payload.md R140, R141): when PAY_NEXT and PAY_LAST are selected, what either writes, and that the last
byte completes the payload and its fold.
-/

namespace Sys2Proof.Machine

/-! Which edges select them. -/

/-- An operation that consumes byte `b` in AwaitPayload, and whose condition in R78 amounts to `cond`, which leaves room for the
byte, is selected exactly when the inputs present `b` in AwaitPayload, `cnt < exp` and `cond`. -/
theorem selectedAt_payload_iff {P : Params} {c : InputCycle} {s : State} {i : Instr} {b : Byte} {cond : Prop}
    (henc : encode P i = eventWord false true (Phase.code .awaitPayload) b) (hwf : i.wellFormed P = true)
    (hen : i.enabled s.regs = true ↔ cond) (hroom : cond → s.cnt.toNat < s.exp.toNat) :
    selectedAt P c s i ↔
      c.presents b ∧ s.phase = Phase.code .awaitPayload ∧ s.cnt.toNat < s.exp.toNat ∧ cond := by
  rw [selectedAt_iff_presents henc, hen, and_iff_right hwf, and_iff_right_of_imp hroom, and_assoc]

theorem selectedAt_payNext_iff {P : Params} {c : InputCycle} {s : State} {b : Byte} :
    selectedAt P c s (.payNext b) ↔
      c.presents b ∧ s.phase = Phase.code .awaitPayload ∧ s.cnt.toNat < s.exp.toNat ∧
        s.cnt.toNat + 1 < s.exp.toNat :=
  selectedAt_payload_iff rfl rfl (morePayload_iff s.regs) Nat.lt_of_succ_lt

theorem selectedAt_payLast_iff {P : Params} {c : InputCycle} {s : State} {b : Byte} :
    selectedAt P c s (.payLast b) ↔
      c.presents b ∧ s.phase = Phase.code .awaitPayload ∧ s.cnt.toNat < s.exp.toNat ∧
        s.cnt.toNat + 1 = s.exp.toNat :=
  selectedAt_payload_iff rfl rfl (lastPayload_iff s.regs) fun hlast => Nat.lt_of_succ_le hlast.le

/-! PAY_NEXT and PAY_LAST. -/

/-- In an open attempt the last byte makes the buffer hold the whole payload, with `chk` its fold (R141, R142). -/
theorem acceptByte_payload_and_fold_of_last {s : State} (b : Byte) (hopen : s.attemptOpen)
    (hlast : s.cnt.toNat + 1 = s.exp.toNat) :
    (s.acceptByte b).payload s.exp.toNat = s.payload s.cnt.toNat ++ [b] ∧
      (s.acceptByte b).chk = xorFold ((s.acceptByte b).payload s.exp.toNat) :=
  ⟨hlast ▸ acceptByte_payload_succ s b, hlast ▸ acceptByte_chk_eq_fold b hopen⟩

/-- Settles O8: PAY_NEXT accepts the byte, keeps AwaitPayload and commits no event; below `exp` the count does not wrap, and
(I-c) of R27 puts it there. -/
theorem payNextStoresAndFolds : Obligations.PayNextStoresAndFolds := by
  refine fun s b => ⟨fun _ => selectedAt_payNext_iff, fun _ hmore => ?_, fun _ hinv hphase => ?_⟩
  · have hroom : s.cnt.toNat < s.exp.toNat := Nat.lt_of_succ_lt hmore
    exact ⟨(s.payNext b).commit .none, exec_payNext b hroom, ⟨rfl, rfl, rfl, rfl, rfl, rfl⟩, toNat_succ_of_lt hroom,
      acceptByte_bufRead_same s b, fun _ => acceptByte_bufRead_other s b, commit_none_trace _, rfl, rfl, rfl⟩
  · obtain ⟨-, hroom, -⟩ := hinv.in_payload hphase
    exact hroom

/-- Settles O9: PAY_LAST accepts the byte, goes to AwaitChecksum and commits no event; the count reaches `exp`, and by (I-c)
of R27 the attempt was open, so the byte completes the payload and its fold. -/
theorem payLastStoresAndFolds : Obligations.PayLastStoresAndFolds := by
  refine fun s b => ⟨fun _ => selectedAt_payLast_iff, fun hphase hlast => ?_⟩
  have hroom : s.cnt.toNat < s.exp.toNat := Nat.lt_of_succ_le hlast.le
  have hcnt : s.cnt + 1 = s.exp := BitVec.eq_of_toNat_eq ((toNat_succ_of_lt hroom).trans hlast)
  exact ⟨(s.payLast b).commit .none, exec_payLast b hroom, ⟨rfl, rfl, rfl, rfl, rfl, rfl⟩, hcnt,
    acceptByte_bufRead_same s b, fun _ => acceptByte_bufRead_other s b, commit_none_trace _, ⟨rfl, rfl, rfl⟩,
    fun _ hinv => acceptByte_payload_and_fold_of_last b (hinv.in_payload hphase) hlast⟩

end Sys2Proof.Machine
end

section
/-!
AwaitChecksum (44_await_checksum.md R150, R151): when CK_MATCH and CK_MISMATCH are selected, and what they write.
-/

namespace Sys2Proof.Machine

/-! Which edges select them. -/

/-- An operation of every build that consumes byte `b` in phase code `p`, and whose condition in R78 on the registers is `cond`,
is selected exactly when the inputs present `b`, the phase register holds `p` and `cond` holds. -/
theorem selectedAt_iff_presents_and_regs {P : Params} {c : InputCycle} {s : State} {i : Instr} {p : PhaseCode} {b : Byte}
    {cond : Prop} [Decidable cond] (henc : encode P i = eventWord false true p b) (hwf : i.wellFormed P = true)
    (hen : i.enabled s.regs = decide cond) : selectedAt P c s i ↔ c.presents b ∧ s.phase = p ∧ cond := by
  rw [selectedAt_iff_presents henc, hen, decide_eq_true_iff, and_iff_right hwf, and_assoc]

theorem selectedAt_ckMatch_iff {P : Params} {c : InputCycle} {s : State} {b : Byte} :
    selectedAt P c s (.ckMatch b) ↔ c.presents b ∧ s.phase = Phase.code .awaitChecksum ∧ b = s.chk :=
  selectedAt_iff_presents_and_regs rfl rfl rfl

theorem selectedAt_ckMismatch_iff {P : Params} {c : InputCycle} {s : State} {b : Byte} :
    selectedAt P c s (.ckMismatch b) ↔ c.presents b ∧ s.phase = Phase.code .awaitChecksum ∧ b ≠ s.chk :=
  selectedAt_iff_presents_and_regs rfl rfl rfl

/-! CK_MATCH and CK_MISMATCH. -/

/-- Settles O11: CK_MATCH writes the phase and commits no event. -/
theorem ckMatchGoesToAwaitEnd : Obligations.CkMatchGoesToAwaitEnd :=
  fun s b => ⟨fun _ => selectedAt_ckMatch_iff, fun _ _ =>
    ⟨s.ckMatch.commit .none, exec_ckMatch s b, ⟨rfl, rfl, rfl, rfl, rfl, rfl⟩, fun _ => rfl, commit_none_trace _, rfl,
      rfl, rfl⟩⟩

/-- Settles O12: CK_MISMATCH runs ResetAttempt, writes AwaitStart and commits `Error(E_CHK)`. -/
theorem ckMismatchSignalsError : Obligations.CkMismatchSignalsError :=
  fun s b => ⟨fun _ => selectedAt_ckMismatch_iff, fun _ _ =>
    ⟨s.ckMismatch.commit (.error .eChk), exec_ckMismatch s b, ⟨rfl, rfl, rfl, rfl, rfl, rfl⟩, fun _ => rfl, rfl, rfl,
      rfl, rfl⟩⟩

end Sys2Proof.Machine
end

section
/-!
AwaitEnd (45_await_end.md R160, R161; 60_exceptions.md R207): when END_OK and END_BAD are selected, what they write, and the
frame that ends in a bad terminator.
-/

namespace Sys2Proof.Machine

/-! Which edges select them. -/

theorem selectedAt_endOk_iff {P : Params} {c : InputCycle} {s : State} :
    selectedAt P c s .endOk ↔ c.presents P.endMarker ∧ s.phase = Phase.code .awaitEnd :=
  (selectedAt_iff_presents rfl).trans (and_iff_left ⟨rfl, rfl⟩)

theorem selectedAt_endBad_iff {P : Params} {c : InputCycle} {s : State} {b : Byte} :
    selectedAt P c s (.endBad b) ↔ c.presents b ∧ s.phase = Phase.code .awaitEnd ∧ b ≠ P.endMarker :=
  selectedAt_iff_presents_and rfl rfl rfl

/-! END_OK and END_BAD. -/

/-- Settles O13: END_OK writes AwaitStart, runs no ResetAttempt and commits `Success(exp)`. -/
theorem endOkSignalsSuccess : Obligations.EndOkSignalsSuccess :=
  fun s => ⟨fun _ => selectedAt_endOk_iff, fun _ =>
    ⟨s.endOk.commit (.success s.exp), exec_endOk s, ⟨rfl, rfl, rfl, rfl, rfl, rfl⟩, rfl, rfl, fun _ => rfl, rfl, rfl,
      rfl, rfl⟩⟩

/-- Settles O14: END_BAD writes AwaitStart, runs no ResetAttempt and commits `Error(E_END)`. -/
theorem endBadSignalsError : Obligations.EndBadSignalsError :=
  fun s b => ⟨fun _ => selectedAt_endBad_iff, fun _ _ =>
    ⟨s.endBad.commit (.error .eEnd), exec_endBad s b, ⟨rfl, rfl, rfl, rfl, rfl, rfl⟩, fun _ => rfl, rfl, rfl, rfl,
      rfl⟩⟩

/-! The frame with a bad terminator. -/

/-- With the payload received, its checksum and a byte other than END_MARKER end the frame in the one error `E_END`, noted at
that byte's edge, with the registers held (R150, R161). -/
theorem runBytes_checksumAndBadEnd {P : Params} {s t : State} {n : Nat} {ps : List Byte} {term : Byte}
    (h : PayloadReceived s t n ps) (hterm : term ≠ P.endMarker) :
    ∃ u, runBytes P [xorFold ps, term] t = .next u ∧ u.phase = Phase.code .awaitStart ∧ u.okR = false ∧ u.errR = true ∧
      u.exp.toNat = ps.length ∧ u.trace = s.trace ++ [.error (s.edge + (n + 1)) .eEnd] := by
  have hmatch : EdgeStep P (consuming (xorFold ps)) t (t.ckMatch.commit .none).afterEdge :=
    .ckMatch rfl rfl h.phase_eq h.chk_eq.symm
  have hend := EdgeStep.endBad (P := P) (c := consuming term) (s := (t.ckMatch.commit .none).afterEdge)
    rfl rfl rfl hterm
  exact ⟨_, (runBytes_cons hmatch _).trans (runBytes_singleton hend), rfl, rfl, rfl, h.exp_eq,
    by simp [h.trace_eq, h.edge_eq, Nat.add_assoc]⟩

/-- Settles O44: the frame's bytes up to the payload signal nothing, the checksum matches, and END_BAD consumes the
terminator, START_MARKER too. -/
theorem badTerminatorGivesOneError : Obligations.BadTerminatorGivesOneError := by
  intro P hP s ps term hphase hps hterm
  obtain ⟨t, ht, hpayload⟩ := runBytes_upToPayload hP hphase hps
  obtain ⟨u, hu, hend⟩ := runBytes_checksumAndBadEnd hpayload hterm
  exact ⟨u, (runBytes_append_of_next ht _).trans hu, hend⟩

end Sys2Proof.Machine
end

section
/-!
Signalling edges and decoders side by side (60_exceptions.md R204, R210): what an edge that signals writes and leaves alone,
and that a step of one decoder reaches no other.
-/

namespace Sys2Proof.Machine

/-- An edge that signals goes to AwaitStart and writes no buffer entry; from AwaitEnd it holds the registers, from any other
phase it runs ResetAttempt (R204). -/
theorem EdgeStep.resynchronises_of_signal {P : Params} {c : InputCycle} {s t : State} (h : EdgeStep P c s t)
    (hsignal : t.okR = true ∨ t.errR = true) :
    t.phase = Phase.code .awaitStart ∧ sameBuffer s t ∧
      (s.phase = Phase.code .awaitEnd → t.exp = s.exp ∧ t.cnt = s.cnt ∧ t.chk = s.chk) ∧
      (s.phase ≠ Phase.code .awaitEnd → t.attemptCleared) := by
  refine ⟨h.awaitStart_of_signal hsignal, ?_⟩
  cases h with
  | lenReject _ _ hp _ | ckMismatch _ _ hp _ =>
    exact ⟨fun _ => rfl, fun hend => absurd (hp.symm.trans hend) (by decide), fun _ => ⟨rfl, rfl, rfl⟩⟩
  | endOk _ _ hp _ | endBad _ _ hp _ => exact ⟨fun _ => rfl, fun _ => ⟨rfl, rfl, rfl⟩, fun hne => absurd hp hne⟩
  | _ => exact absurd hsignal (by simp)

/-- Settles O30: operation by operation; of those that signal, LEN_REJECT and CK_MISMATCH run ResetAttempt, END_OK and END_BAD
hold the registers, and none writes the buffer. -/
theorem signallingEdgeResynchronises : Obligations.SignallingEdgeResynchronises :=
  fun _ _ _ _ h hsignal => (clockEdge_next_iff.mp h).resynchronises_of_signal hsignal

/-- A system's step that answers a next system is the stepping decoder's own step, written in its place. -/
theorem instanceStep_next {n : Nat} {k : Fin n} {sys sys' : Instances n} (h : instanceStep k sys = .next sys') :
    ∃ t, step sys[k] = .next t ∧ sys' = sys.set k t := by
  unfold instanceStep at h
  split at h
  next t ht =>
    cases h
    exact ⟨t, ht, rfl⟩
  next => cases h
  next => cases h

/-- Settles O52: the system's step writes place `k` with that decoder's own next state, and no other place. -/
theorem instancesAreIndependent : Obligations.InstancesAreIndependent := by
  intro n k sys sys' h
  obtain ⟨t, ht, rfl⟩ := instanceStep_next h
  have hself : (sys.set k t)[k] = t := Vector.getElem_set_self k.isLt
  refine ⟨ht.trans (congrArg Host.Outcome.next hself.symm), fun j hj => ?_⟩
  exact Vector.getElem_set_ne k.isLt j.isLt (Fin.val_ne_of_ne hj.symm)

end Sys2Proof.Machine
end

section
/-!
Frames from AwaitStart (60_exceptions.md R202, R214, R215): a well-formed frame at the ports, a frame with a wrong checksum
byte, noise before a frame, and frames one after another.
-/

namespace Sys2Proof.Machine

/-! One well-formed frame. -/

theorem payload_getElem (s : State) {n i : Nat} (h : i < (s.payload n).length) : (s.payload n)[i] = s.bufRead i := by
  simp [State.payload]

/-- After a well-formed frame the read port shows the payload, for its addresses lie below `CAP` (R52, R53). -/
theorem FrameReceived.readPort_eq {P : Params} (hP : P.legal) {s t : State} {ps : List Byte}
    (h : FrameReceived s t ps) (hps : legalLength P ps) {i : Nat} (hi : i < ps.length) :
    t.readPort P (BitVec.ofNat 8 i) = ps[i] := by
  obtain ⟨-, hcap⟩ := hP
  obtain ⟨-, hlen⟩ := hps
  have haddr : (BitVec.ofNat 8 i).toNat = i := by
    rw [BitVec.toNat_ofNat]
    omega
  have hread : t.readPort P (BitVec.ofNat 8 i) = t.bufRead i := by
    rw [readPort_of_lt t (by omega), haddr]
  have hi' : i < (t.payload ps.length).length := by rwa [payload_length]
  calc t.readPort P (BitVec.ofNat 8 i) = t.bufRead i := hread
    _ = (t.payload ps.length)[i] := (payload_getElem t hi').symm
    _ = ps[i] := getElem_congr_coll h.payload_eq

/-- Settles O42: the run of the frame part by part, and its payload read at the port. -/
theorem wellFormedFrameSucceeds : Obligations.WellFormedFrameSucceeds := by
  intro P hP s ps hphase hps
  obtain ⟨t, ht, hframe⟩ := runBytes_frameBytes hP hphase hps
  exact ⟨t, ht, hframe.phase_eq, hframe.okR_eq, hframe.errR_eq, hframe.exp_eq, fun _ hi => hframe.readPort_eq hP hps hi,
    hframe.edge_eq, hframe.trace_eq⟩

/-! A wrong checksum byte. -/

/-- With the payload received, a byte that is not its fold gives the one error `E_CHK` at its edge, and END_MARKER after it
is noise, for the markers differ (R151, R121). -/
theorem runBytes_badChecksumAndEnd {P : Params} (hmarkers : P.endMarker ≠ P.startMarker) {s t : State} {n : Nat}
    {ps : List Byte} {ck : Byte} (h : PayloadReceived s t n ps) (hck : ck ≠ xorFold ps) :
    ∃ u, runBytes P [ck, P.endMarker] t = .next u ∧ u.phase = Phase.code .awaitStart ∧ u.okR = false ∧ u.errR = false ∧
      u.trace = s.trace ++ [.error (s.edge + n) .eChk] := by
  have hmismatch : EdgeStep P (consuming ck) t (t.ckMismatch.commit (.error .eChk)).afterEdge :=
    .ckMismatch rfl rfl h.phase_eq (h.chk_eq ▸ hck)
  have hnoise := EdgeStep.noise (P := P) (c := consuming P.endMarker)
    (s := (t.ckMismatch.commit (.error .eChk)).afterEdge) rfl rfl rfl hmarkers
  exact ⟨_, (runBytes_cons hmismatch _).trans (runBytes_singleton hnoise), rfl, rfl, rfl,
    by simp [h.trace_eq, h.edge_eq]⟩

/-- Flipping one bit of a word changes that bit. -/
theorem xor_singleBit_ne {w : Nat} (x : BitVec w) {i : Nat} (hi : i < w) : x ^^^ (1#w <<< i) ≠ x := by
  intro h
  have hbit : (x ^^^ (1#w <<< i)).getLsbD i = x.getLsbD i := congrArg (BitVec.getLsbD · i) h
  rw [← BitVec.twoPow_eq] at hbit
  simp [hi] at hbit

/-- Settles O43: the frame's bytes up to the payload signal nothing, CK_MISMATCH gives the error, and END_MARKER is noise. -/
theorem wrongChecksumGivesOneError : Obligations.WrongChecksumGivesOneError := by
  refine ⟨fun s ps ck hphase hps hck => ?_, fun x i hi => xor_singleBit_ne x hi⟩
  obtain ⟨t, ht, hpayload⟩ := runBytes_upToPayload (by decide) hphase hps
  obtain ⟨u, hu, herror⟩ := runBytes_badChecksumAndEnd (P := Config.hw) (by decide) hpayload hck
  exact ⟨u, (runBytes_append_of_next ht _).trans hu, herror⟩

/-! Noise, and frames one after another. -/

/-- A frame's success as two runs are compared on it: without the number of its edge (R108). -/
theorem FrameReceived.trace_content_eq {s t : State} {ps : List Byte} (h : FrameReceived s t ps) :
    t.trace.map Notice.content = s.trace.map Notice.content ++ [successContent ps] := by
  rw [h.trace_eq, List.map_append]
  rfl

/-- In AwaitStart, bytes without START_MARKER are absorbed: the phase stays and nothing is noted (R121). -/
theorem runBytes_noise {P : Params} {noise : List Byte} {s : State} (hphase : s.phase = Phase.code .awaitStart)
    (hnoise : P.startMarker ∉ noise) :
    ∃ t, runBytes P noise s = .next t ∧ t.phase = Phase.code .awaitStart ∧ t.trace = s.trace := by
  induction noise generalizing s with
  | nil => exact ⟨s, rfl, hphase, rfl⟩
  | cons b bs ih =>
    obtain ⟨hb, hbs⟩ := List.ne_and_not_mem_of_not_mem_cons hnoise
    have hedge : EdgeStep P (consuming b) s (s.noise.commit .none).afterEdge := .noise rfl rfl hphase hb.symm
    obtain ⟨t, ht, htphase, htrace⟩ := ih (s := (s.noise.commit .none).afterEdge) rfl hbs
    exact ⟨t, (runBytes_cons hedge bs).trans ht, htphase, htrace.trans (commit_none_trace _)⟩

/-- Settles O45: the noise leads to AwaitStart with the same notifications, and the frame gives its success from there. -/
theorem noiseBeforeFrameIsAbsorbed : Obligations.NoiseBeforeFrameIsAbsorbed := by
  intro P hP s noise ps hphase hnoise hps
  obtain ⟨t, ht, htphase, htrace⟩ := runBytes_noise hphase hnoise
  obtain ⟨u, hu, hframe⟩ := runBytes_frameBytes hP htphase hps
  exact ⟨u, (runBytes_append_of_next ht _).trans hu, hframe.okR_eq, hframe.phase_eq,
    htrace ▸ hframe.trace_content_eq⟩

/-- Settles O46: by induction on the frames, each leading back to AwaitStart with its own success noted. -/
theorem backToBackFramesSucceedInOrder : Obligations.BackToBackFramesSucceedInOrder := by
  intro P hP s frames hphase hframes
  induction frames generalizing s with
  | nil => exact ⟨s, rfl, hphase, (List.append_nil _).symm⟩
  | cons ps rest ih =>
    obtain ⟨hps, hrest⟩ := List.forall_mem_cons.mp hframes
    obtain ⟨t, ht, hframe⟩ := runBytes_frameBytes hP hphase hps
    obtain ⟨u, hu, huphase, htrace⟩ := ih t hframe.phase_eq hrest
    refine ⟨u, (runBytes_append_of_next ht _).trans hu, huphase, ?_⟩
    rw [htrace, hframe.trace_content_eq, List.append_assoc]
    rfl

end Sys2Proof.Machine
end

section
/-!
A success only after a well-formed frame (60_exceptions.md R202). The bytes consumed from AwaitStart end, in every state on
the way, with the part of a frame that the pending attempt has taken; so END_OK completes a frame.
-/

namespace Sys2Proof.Machine

/-- The part of a frame that the attempt pending in phase `p` has taken, as the registers and the buffer hold it (R71). -/
def State.attemptBytes (P : Params) (s : State) : Phase → List Byte
  | .awaitStart => []
  | .awaitLength => [P.startMarker]
  | .awaitPayload => P.startMarker :: s.exp :: s.payload s.cnt.toNat
  | .awaitChecksum => P.startMarker :: s.exp :: s.payload s.exp.toNat
  | .awaitEnd => P.startMarker :: s.exp :: (s.payload s.exp.toNat ++ [s.chk])

/-- State `s` stands in phase `p` after `bytes`: they end with what the pending attempt has taken, and its registers are as
R27 has them. In AwaitStart no attempt is pending, and nothing is asked. -/
structure AttemptAfter (P : Params) (bytes : List Byte) (s : State) (p : Phase) : Prop where
  phase_eq : s.phase = p.code
  regs : p ≠ .awaitStart → s.attemptIn p ∧ s.exp.toNat < P.cap
  suffix : s.attemptBytes P p <:+ bytes

theorem attemptAfter_awaitStart (P : Params) (bytes : List Byte) {s : State} (h : s.phase = Phase.code .awaitStart) :
    AttemptAfter P bytes s .awaitStart where
  phase_eq := h
  regs hne := absurd rfl hne
  suffix := List.nil_suffix

/-- An edge that takes the attempt one byte further. -/
theorem AttemptAfter.snoc {P : Params} {bytes : List Byte} {s t : State} {p q : Phase} {b : Byte}
    (h : AttemptAfter P bytes s p) (hphase : t.phase = q.code) (hregs : t.attemptIn q) (hexp : t.exp.toNat < P.cap)
    (hbytes : t.attemptBytes P q = s.attemptBytes P p ++ [b]) : AttemptAfter P (bytes ++ [b]) t q where
  phase_eq := hphase
  regs _ := ⟨hregs, hexp⟩
  suffix := hbytes ▸ List.suffix_append_self_iff.mpr h.suffix

/-- A legal length loaded into cleared registers opens the attempt with no byte received (R130). -/
theorem attemptOpen_of_length {s : State} {b : Byte} (h : s.attemptCleared) (hpos : 0 < b.toNat) :
    ({ s with exp := b } : State).attemptOpen := by
  obtain ⟨-, hcnt, hchk⟩ := h
  exact ⟨hpos, by simpa [hcnt] using hpos, by simp [hcnt, hchk, payload_zero]⟩

/-- Every consuming edge adds its byte to the attempt or ends it in AwaitStart. -/
theorem EdgeStep.keeps_attemptAfter {P : Params} (hcap : 0 < P.cap) {bytes : List Byte} {b : Byte} {s t : State}
    {p : Phase} (h : EdgeStep P (consuming b) s t) (hs : AttemptAfter P bytes s p) :
    ∃ q, AttemptAfter P (bytes ++ [b]) t q := by
  have phase_is {q : Phase} (hq : s.phase = q.code) : p = q := phase_code_injective (hs.phase_eq.symm.trans hq)
  cases h with
  | reset hrst => cases hrst
  | recover _ hp => exact absurd (hs.phase_eq ▸ code_lt_five p) hp.not_gt
  | idle _ _ hv => cases hv
  | noise | lenReject | ckMismatch | endOk | endBad => exact ⟨_, attemptAfter_awaitStart P _ rfl⟩
  | startDetect _ _ hp hb =>
    cases phase_is hp
    exact ⟨.awaitLength, hs.snoc rfl ⟨rfl, rfl, rfl⟩ hcap (congrArg (fun x => [x]) hb.symm)⟩
  | lenAccept _ _ hp hb =>
    cases phase_is hp
    have ⟨hcleared, _⟩ := hs.regs nofun
    have ⟨hpos, hlen⟩ := hb
    have ⟨_, hcnt, _⟩ := hcleared
    refine ⟨.awaitPayload, hs.snoc rfl (attemptOpen_of_length (s := s) hcleared hpos) hlen ?_⟩
    simp [State.attemptBytes, hcnt, payload_zero, consuming]
  | payNext _ _ hp hb =>
    cases phase_is hp
    have ⟨hopen, hexp⟩ := hs.regs nofun
    have hcnt : (s.cnt + 1).toNat = s.cnt.toNat + 1 := toNat_succ_of_lt (Nat.lt_of_succ_lt hb)
    refine ⟨.awaitPayload, hs.snoc rfl (acceptByte_attemptOpen b hopen hb) hexp ?_⟩
    show P.startMarker :: s.exp :: (s.acceptByte b).payload (s.cnt + 1).toNat = _
    rw [hcnt, acceptByte_payload_succ]
    rfl
  | payLast _ _ hp hb =>
    cases phase_is hp
    have ⟨hopen, hexp⟩ := hs.regs nofun
    refine ⟨.awaitChecksum, hs.snoc rfl (acceptByte_attemptFull b hopen hb) hexp ?_⟩
    simp [State.attemptBytes, ← hb, acceptByte_payload_succ, consuming]
  | ckMatch _ _ hp hb =>
    cases phase_is hp
    have ⟨hfull, hexp⟩ := hs.regs nofun
    have hb : b = s.chk := hb
    exact ⟨.awaitEnd, hs.snoc rfl hfull hexp (by simp [State.attemptBytes, hb])⟩

/-- In AwaitEnd the bytes consumed and END_MARKER end with the frame of the payload in the buffer (R71, R73). -/
theorem AttemptAfter.frameBytes_suffix {P : Params} {bytes : List Byte} {s : State}
    (h : AttemptAfter P bytes s .awaitEnd) : frameBytes P (s.payload s.exp.toNat) <:+ bytes ++ [P.endMarker] := by
  have ⟨⟨_, _, hchk⟩, _⟩ := h.regs nofun
  have hframe : frameBytes P (s.payload s.exp.toNat) = s.attemptBytes P .awaitEnd ++ [P.endMarker] := by
    simp [frameBytes, frameBytesWith, State.attemptBytes, ← hchk]
  exact hframe ▸ List.suffix_append_self_iff.mpr h.suffix

/-- A run of bytes that gives a next state ends with the edge of its last byte. -/
theorem runBytes_snoc_next {P : Params} {bs : List Byte} {b : Byte} {s t : State}
    (h : runBytes P (bs ++ [b]) s = .next t) :
    ∃ u, runBytes P bs s = .next u ∧ EdgeStep P (consuming b) u t := by
  rw [runBytes_append] at h
  cases hrun : runBytes P bs s with
  | next u =>
    rw [hrun, continueWith_next] at h
    obtain ⟨v, hedge, hv⟩ := run_cons_next h
    cases hv
    exact ⟨u, rfl, hedge⟩
  | fault f => rw [hrun] at h; cases h
  | refused r => rw [hrun] at h; cases h

/-- Wherever bytes consumed from AwaitStart lead, they end with what the pending attempt has taken. -/
theorem exists_attemptAfter_of_runBytes {P : Params} (hcap : 0 < P.cap) {bytes : List Byte} {s t : State}
    (hphase : s.phase = Phase.code .awaitStart) (h : runBytes P bytes s = .next t) : ∃ p, AttemptAfter P bytes t p := by
  induction bytes using List.reverseRecOn generalizing t with
  | nil => cases h; exact ⟨_, attemptAfter_awaitStart P [] hphase⟩
  | append_singleton bs b ih =>
    obtain ⟨u, hu, hedge⟩ := runBytes_snoc_next h
    obtain ⟨p, hp⟩ := ih hu
    exact hedge.keeps_attemptAfter hcap hp

/-- A success edge consumes END_MARKER in AwaitEnd, and holds the length and the payload (R160). -/
theorem EdgeStep.endOk_of_okR {P : Params} {c : InputCycle} {s t : State} (h : EdgeStep P c s t) (hok : t.okR = true) :
    s.phase = Phase.code .awaitEnd ∧ c.inData = P.endMarker ∧ t.exp = s.exp ∧ sameBuffer s t := by
  cases h with
  | endOk _ _ hp hb => exact ⟨hp, hb, rfl, fun _ => rfl⟩
  | _ => exact absurd hok (by simp)

/-- Settles O47: the last edge was END_OK, so before it the attempt had taken all of a frame but END_MARKER. -/
theorem successOnlyAfterWellFormedFrame : Obligations.SuccessOnlyAfterWellFormedFrame := by
  intro P hP s t bytes hphase hne hrun hok
  obtain ⟨init, b, rfl⟩ := (List.eq_nil_or_concat' bytes).resolve_left hne
  obtain ⟨u, hu, hedge⟩ := runBytes_snoc_next hrun
  obtain ⟨p, hattempt⟩ := exists_attemptAfter_of_runBytes (Nat.zero_lt_of_lt hP.1) hphase hu
  obtain ⟨hend, hb, hexp, hbuf⟩ := hedge.endOk_of_okR hok
  cases phase_code_injective (hattempt.phase_eq.symm.trans hend)
  have ⟨⟨hpos, _⟩, hcap⟩ := hattempt.regs nofun
  obtain ⟨before, hsplit⟩ := hattempt.frameBytes_suffix
  have hlen : (u.payload u.exp.toNat).length = u.exp.toNat := payload_length u _
  refine ⟨before, u.payload u.exp.toNat, ?_, ⟨by rwa [hlen], by rwa [hlen]⟩, ?_, ?_⟩
  · exact (congrArg (fun x => init ++ [x]) hb).trans hsplit.symm
  · exact (congrArg BitVec.toNat hexp).trans hlen.symm
  · rw [hlen]
    exact payload_of_sameBuffer hbuf _

end Sys2Proof.Machine
end

section
/-!
Reset and the hazards of a held byte (70_reset_and_hazards.md R250, R253, R255, R256): when RESET is selected and what it
writes, `ok_len` after the `ok` cycle, and the same byte consumed at two edges.
-/

namespace Sys2Proof.Machine

/-! RESET. -/

/-- Row 1 of R78 has no condition beside `rst`, in any build. -/
theorem selectedAt_reset_iff {P : Params} {c : InputCycle} {s : State} :
    selectedAt P c s (.reset c.inValid s.phase c.inData) ↔ c.rst = true :=
  (selectedAt_iff_of_encode rfl).trans
    ⟨fun ⟨⟨hrst, _⟩, _⟩ => hrst.symm, fun hrst => ⟨⟨hrst.symm, rfl, rfl, rfl⟩, rfl, rfl⟩⟩

/-- RESET's writes are the reset values of R21 to R26 (R250). -/
theorem resetEdge_holds (s : State) : s.resetEdge.holds .awaitStart 0x00 0x00 0x00 false false :=
  ⟨rfl, rfl, rfl, rfl, rfl, rfl⟩

theorem State.holds.afterEdge {s : State} {p : Phase} {exp cnt chk : Byte} {ok err : Bool}
    (h : s.holds p exp cnt chk ok err) : s.afterEdge.holds p exp cnt chk ok err := h

/-- Settles O38: with `rst = 1` the edge is RESET whatever was going on, and counting the edge changes no register. -/
theorem resetDiscardsAttempt : Obligations.ResetDiscardsAttempt :=
  fun _ _ s hrst =>
    ⟨s.resetEdge.afterEdge, (EdgeStep.reset hrst).clockEdge_eq, (resetEdge_holds s).afterEdge,
      State.resetEdge_bufRead s, rfl⟩

/-- Settles O1: RESET's row tests `rst` alone, and its meaning is `resetEdge` for all operands. -/
theorem resetWritesResetValues : Obligations.ResetWritesResetValues :=
  fun s => ⟨fun _ => selectedAt_reset_iff, fun v p b =>
    ⟨s.resetEdge, exec_reset s v p b, resetEdge_holds s, State.resetEdge_bufRead s, rfl, rfl, rfl, rfl⟩⟩

/-- Settles O15: `State.reset` is what a reset edge leaves of an empty buffer and an empty trace. -/
theorem resetStateHoldsResetValues : Obligations.ResetStateHoldsResetValues :=
  ⟨reset_eq_resetEdge ▸ (resetEdge_holds _).afterEdge, rfl, fun _ => rfl⟩

/-! A byte consumed in AwaitStart. -/

/-- The inputs and the state determine the next state. -/
theorem EdgeStep.next_unique {P : Params} {c : InputCycle} {s t u : State} (ht : EdgeStep P c s t)
    (hu : EdgeStep P c s u) : t = u :=
  Host.Outcome.next.inj (ht.clockEdge_eq.symm.trans hu.clockEdge_eq)

/-- Of the bytes consumed in AwaitStart, START_MARKER clears the length output and every other byte holds it (R255). -/
theorem EdgeStep.okLen_of_awaitStart {P : Params} {b : Byte} {s t : State} (h : EdgeStep P (consuming b) s t)
    (hphase : s.phase = Phase.code .awaitStart) : t.okLen = if b = P.startMarker then 0x00 else s.okLen := by
  by_cases hb : b = P.startMarker
  · rw [if_pos hb, h.next_unique (.startDetect rfl rfl hphase hb)]
    rfl
  · rw [if_neg hb, h.next_unique (.noise rfl rfl hphase hb)]
    rfl

/-- Settles O49: the byte selects START_DETECT, which runs ResetAttempt, or NOISE, which holds every register. -/
theorem lengthOutputAfterSuccess : Obligations.LengthOutputAfterSuccess := by
  intro s t b hphase h
  have hlen := (clockEdge_next_iff.mp h).okLen_of_awaitStart hphase
  exact ⟨fun hb => hlen.trans (if_pos hb), fun hb => hlen.trans (if_neg hb)⟩

/-- Settles O51: the first edge is START_DETECT, the second LEN_ACCEPT with START_MARKER as the length 2. -/
theorem heldByteIsConsumedTwice : Obligations.HeldByteIsConsumedTwice := by
  intro s hphase
  have hstart : EdgeStep Config.hw (consuming 0x02) s (s.startDetect.commit .none).afterEdge :=
    .startDetect rfl rfl hphase rfl
  have hlength := EdgeStep.lenAccept (P := Config.hw) (c := consuming 0x02)
    (s := (s.startDetect.commit .none).afterEdge) rfl rfl rfl (by decide)
  exact ⟨_, (runBytes_cons hstart _).trans (runBytes_singleton hlength), ⟨rfl, rfl, rfl, rfl, rfl, rfl⟩, fun _ => rfl,
    by simp⟩

end Sys2Proof.Machine
end
